-- ==== Sys2Proof/Word.lean ====
section
/-! DEFINITION. The machine's words: bytes, 32-bit words and the three access widths (`00_scope.md` R7, `20_memory.md` R42). -/

namespace Sys2Proof

/-- "A byte is 8 bits" (R7). -/
abbrev Byte := BitVec 8

/-- Every register, literal and address is a 32-bit unsigned vector (R7, R20, R36). -/
abbrev Word := BitVec 32

/-- The widths n ∈ {1, 2, 4} of a typed access (R42, R43). -/
inductive Width where
  | w1
  | w2
  | w4
  deriving DecidableEq, Repr

/-- The number of bytes of an access of this width. -/
def Width.bytes : Width → Nat
  | .w1 => 1
  | .w2 => 2
  | .w4 => 4

/-- The two address spaces (R36). On the host port the same two names select one of the two memories (R42 "either memory"). -/
inductive Space where
  | prog
  | data
  deriving DecidableEq, Repr

end Sys2Proof
end

