-- ==== Sys2Proof/Config.lean ====
section
/-! DEFINITION. What an implementation fixes: the parameters of `00_scope.md` R6, and the free values of `93_implementation_defined.md` U2 and U5. -/

namespace Sys2Proof

/-- The OPEN byte parameters of R6, the three opcode values (R76) and the register-id values (R78), and one of the model's own. They are fixed when the block is
built (R72); the model carries them in `State.params`, which no step changes, so that a statement can speak of every block. -/
structure Params where
  /-- OPC_MOV_LIT_REG. -/
  opcMovLitReg : Byte
  /-- OPC_STORE_LIT_MEM. -/
  opcStoreLitMem : Byte
  /-- OPC_RETURN. -/
  opcReturn : Byte
  /-- REG_ID(R0). -/
  regIdR0 : Byte
  /-- REG_ID(R1). -/
  regIdR1 : Byte
  /-- REG_ID(R2). -/
  regIdR2 : Byte
  /-- REG_ID(R3). -/
  regIdR3 : Byte
  /-- REG_ID_IP, or none when no register-id operand can name IP. -/
  regIdIp : Option Byte
  /-- The model's own parameter, none of R6's: which of the spec's rules a block follows for an instruction whose field would start past
  address 2^32 - 1, where they disagree (log entry 7). False, the default: the fields stand at the sums a + 1 and a + 5 on natural numbers,
  so such a field is out of bounds (R27 with D5, R120, R130, R155). True: IP wraps between two fields and the next field is read at 0 (the
  pseudocode of R102, R103 and R108 taken alone, and the infinite run of R112). Both kinds of block are modelled. -/
  fieldsWrap : Bool
  deriving DecidableEq, Repr

/-- The three opcode bytes, in the table's order. -/
def Params.opcodes (p : Params) : List Byte :=
  [p.opcMovLitReg, p.opcStoreLitMem, p.opcReturn]

/-- The register-id bytes, in the order of R79. -/
def Params.regIds (p : Params) : List Byte :=
  [p.regIdR0, p.regIdR1, p.regIdR2, p.regIdR3] ++ p.regIdIp.toList

/-- R6: "The three opcode values must be pairwise distinct 8-bit values", and so must the register-id values. -/
abbrev Params.wf (p : Params) : Prop :=
  p.opcodes.Nodup ∧ p.regIds.Nodup

/-- The largest size of a memory: 0 ≤ size ≤ 2^32 (R6, D3). -/
abbrev Config.maxMemSize : Nat := 2 ^ 32

/-- FREE VALUE: what IP holds after the n-th fatal error, "any 32-bit value" (R154, D6). It has no body: nothing can be proved of a
value of it. Log entry 6. -/
opaque Config.ipAfterFault : Nat → Word

/-- FREE VALUE: what the host reads from a status field that holds "no value a model may rely on" (R31, D10); the read is narrowed to
the field's width. Log entry 5. -/
opaque Config.unspecifiedStatus : Nat → Word

end Sys2Proof
end

