-- ==== Sys2Proof/Syntax.lean ====
section
/-! DEFINITION. The instructions of `30_encoding.md` R73, one constructor per row of the dispatch table, and the register names of `10_state.md` R20. -/

namespace Sys2Proof

/-- The closed set of register names (R20): four general registers and the instruction pointer. -/
inductive Reg where
  | r0
  | r1
  | r2
  | r3
  | ip
  deriving DecidableEq, Repr

/-- The instruction set: "exactly the three rows" (R72). Operands stand in encoding order (R73, R84). -/
inductive Instr where
  /-- MOV_LIT_REG lit reg (R120, R121). -/
  | movLitReg (lit : Word) (reg : Reg)
  /-- STORE_LIT_MEM lit addr (R130). -/
  | storeLitMem (lit : Word) (addr : Word)
  /-- RETURN (R140). -/
  | ret
  deriving DecidableEq, Repr

end Sys2Proof
end

