-- ==== Sys2Proof/WellFormed.lean ====
section
/-! DEFINITION. Which instructions a block with given parameters can encode (`30_encoding.md` R78, R79). -/

namespace Sys2Proof

/-- A register can be named by a register-id operand: R0 to R3 always, IP only when REG_ID_IP is not none (R78). -/
def Reg.nameable (p : Params) : Reg → Bool
  | .r0 | .r1 | .r2 | .r3 => true
  | .ip => p.regIdIp.isSome

/-- The one check on an instruction's operands: its register must be nameable. Every 32-bit literal and address is legal (R75). -/
def Instr.wf (p : Params) : Instr → Bool
  | .movLitReg _ reg => reg.nameable p
  | .storeLitMem _ _ => true
  | .ret => true

end Sys2Proof
end

