-- ==== Sys2Proof/Decode.lean ====
section
/-! DEFINITION. The byte order, the dispatch table, the decoder and the encoder of `30_encoding.md`. -/

namespace Sys2Proof

/-- The default parameters of R6: opcodes 0x01, 0x02, 0x03, register ids 0x00 to 0x03, IP not nameable.
DESIGN CHOICE (the spec's decisions D1 and D2; log entries 1 and 2). That fields do not wrap is the model's default for its own
parameter: DEDUCED from R27 with D5, log entry 7. -/
def Params.default : Params where
  opcMovLitReg := 0x01
  opcStoreLitMem := 0x02
  opcReturn := 0x03
  regIdR0 := 0x00
  regIdR1 := 0x01
  regIdR2 := 0x02
  regIdR3 := 0x03
  regIdIp := none
  fieldsWrap := false

/-! ### Byte order (R48): little-endian, the lowest address is the least significant byte. -/

/-- The n low bytes of v, least significant first. -/
def leBytes : Nat → Nat → List Byte
  | 0, _ => []
  | n + 1, v => BitVec.ofNat 8 v :: leBytes n (v / 256)

/-- The unsigned number that bytes in address order stand for. -/
def leNat : List Byte → Nat
  | [] => 0
  | b :: bs => b.toNat + 256 * leNat bs

/-! ### The dispatch table (R73). -/

/-- The roles of operand fields (R73). -/
inductive FieldRole where
  | literal
  | registerId
  | address
  deriving DecidableEq, Repr

/-- The width of a field: 32 bits for a literal or an address, 8 bits for a register id (R73). -/
def FieldRole.width : FieldRole → Width
  | .literal => .w4
  | .registerId => .w1
  | .address => .w4

/-- The effect a row of the dispatch table leads to. -/
inductive Op where
  | movLitReg
  | storeLitMem
  | ret
  deriving DecidableEq, Repr

/-- The operand fields of an operation, in encoding order (R73). -/
def Op.fields : Op → List FieldRole
  | .movLitReg => [.literal, .registerId]
  | .storeLitMem => [.literal, .address]
  | .ret => []

/-- The number of bytes of a sequence of fields. -/
def fieldBytes : List FieldRole → Nat
  | [] => 0
  | f :: fs => f.width.bytes + fieldBytes fs

/-- The total length of an instruction, opcode byte included (R73: 6, 9 and 1 bytes). -/
def Op.length (op : Op) : Nat :=
  1 + fieldBytes op.fields

/-- The operation of an instruction. -/
def Instr.op : Instr → Op
  | .movLitReg _ _ => .movLitReg
  | .storeLitMem _ _ => .storeLitMem
  | .ret => .ret

/-- The length of an instruction in bytes (R71). -/
def Instr.length (i : Instr) : Nat :=
  i.op.length

/-- The longest instruction: STORE_LIT_MEM, 9 bytes (R71). -/
def maxInstrBytes : Nat := 9

/-- One row of the dispatch table: "a declarative mapping from opcode to operand layout" (R73). -/
structure DispatchRow where
  opcode : Byte
  op : Op
  deriving DecidableEq, Repr

/-- The dispatch table (R73), at the block's opcode values. -/
def dispatchTable (p : Params) : List DispatchRow :=
  [⟨p.opcMovLitReg, .movLitReg⟩, ⟨p.opcStoreLitMem, .storeLitMem⟩, ⟨p.opcReturn, .ret⟩]

/-- DISPATCH[opcode] (R103): the operation of the row the byte matches, or none. -/
def dispatch (p : Params) (b : Byte) : Option Op :=
  ((dispatchTable p).find? fun row => row.opcode == b).map (·.op)

/-! ### Register ids (R79). -/

/-- The register-id byte of a register; IP has one only when REG_ID_IP is not none. -/
def regId (p : Params) : Reg → Option Byte
  | .r0 => some p.regIdR0
  | .r1 => some p.regIdR1
  | .r2 => some p.regIdR2
  | .r3 => some p.regIdR3
  | .ip => p.regIdIp

/-- decodeReg(b) (R79): the register a byte names, tried in the order R0 to R3, then IP; none where R79 raises InvalidRegister. -/
def decodeReg (p : Params) (b : Byte) : Option Reg :=
  [Reg.r0, .r1, .r2, .r3, .ip].find? fun r => regId p r == some b

/-! ### Reading the operand fields (R80, R103). -/

/-- The decoded operand values of an instruction. A field the row does not have keeps the value 0 and is never looked at. -/
structure Operands where
  lit : Word := 0
  addr : Word := 0
  regByte : Byte := 0
  deriving DecidableEq, Repr

/-- Record the value read for a field; values are taken whole (R75). -/
def Operands.set (o : Operands) (f : FieldRole) (v : Word) : Operands :=
  match f with
  | .literal => { o with lit := v }
  | .registerId => { o with regByte := v.setWidth 8 }
  | .address => { o with addr := v }

/-- A way to read one field of a width from where a source stands: its value and where the source stands after it, or none when the
field is out of bounds. For the sequencer the source is an address (R103); for a byte string it is the bytes still to be read. -/
abbrev FieldReader (σ : Type) := Width → σ → Option (Word × σ)

/-- What reading the fields gives: the operands and where the source stands after them, or where the first field that is out of bounds
was to be read. -/
inductive FieldsResult (σ : Type) where
  | ok (operands : Operands) (rest : σ)
  | short (src : σ) (width : Width)
  deriving DecidableEq, Repr

/-- Read the fields in order, each checked when it is reached (R103, D7). -/
def readFields {σ : Type} (read : FieldReader σ) : List FieldRole → Operands → σ → FieldsResult σ
  | [], o, src => .ok o src
  | f :: fs, o, src =>
    match read f.width src with
    | none => .short src f.width
    | some (v, rest) => readFields read fs (o.set f v) rest

/-! ### The decoder (R81). -/

/-- The outcomes of decoding (R81). -/
inductive DecodeResult (σ : Type) where
  /-- One of the three instructions, and where the source stands after it. -/
  | ok (i : Instr) (rest : σ)
  /-- The field of this width to be read here is out of bounds: OutOfBounds. -/
  | outOfBounds (src : σ) (width : Width)
  /-- The opcode byte matches no row: IllegalInstruction. -/
  | illegalInstruction (byte : Byte)
  /-- The register-id byte names no register: InvalidRegister. -/
  | invalidRegister (byte : Byte)
  deriving DecidableEq, Repr

/-- The instruction an operation and its operands stand for; the register id is validated here, after every field is read (R103). -/
def Op.assemble {σ : Type} (p : Params) (op : Op) (o : Operands) (rest : σ) : DecodeResult σ :=
  match op with
  | .movLitReg =>
    match decodeReg p o.regByte with
    | some r => .ok (.movLitReg o.lit r) rest
    | none => .invalidRegister o.regByte
  | .storeLitMem => .ok (.storeLitMem o.lit o.addr) rest
  | .ret => .ok .ret rest

/-- The decoder (R102, R103): the opcode byte, its row, the row's fields. Total, generic over the table (R80), and rejecting by name. -/
def decodeFrom {σ : Type} (p : Params) (read : FieldReader σ) (src : σ) : DecodeResult σ :=
  match read .w1 src with
  | none => .outOfBounds src .w1
  | some (opcode, rest) =>
    match dispatch p (opcode.setWidth 8) with
    | none => .illegalInstruction (opcode.setWidth 8)
    | some op =>
      match readFields read op.fields {} rest with
      | .short src w => .outOfBounds src w
      | .ok o rest => op.assemble p o rest

/-- Read a field from the front of a byte string, little-endian (R48). -/
def takeField : FieldReader (List Byte) := fun w bs =>
  if w.bytes ≤ bs.length then some (BitVec.ofNat 32 (leNat (bs.take w.bytes)), bs.drop w.bytes) else none

/-- The decoder on a byte string: the instruction at its head and the bytes after it. -/
def decode (p : Params) (bytes : List Byte) : DecodeResult (List Byte) :=
  decodeFrom p takeField bytes

/-! ### The encoder (R82). -/

/-- enc(i) (R82); none for an instruction that has no encoding (a register that is not nameable). -/
def encode (p : Params) : Instr → Option (List Byte)
  | .movLitReg lit r => (regId p r).map fun b => p.opcMovLitReg :: (leBytes 4 lit.toNat ++ [b])
  | .storeLitMem lit addr => some (p.opcStoreLitMem :: (leBytes 4 lit.toNat ++ leBytes 4 addr.toNat))
  | .ret => some [p.opcReturn]

/-! ### The table's words. -/

/-- The bytes, in address order, of an instruction whose bits are w as `opcode_table.json` numbers them (R74: byte k is I[8k+7 : 8k]);
the bits from nbits up are 0. -/
def tableBytes (nbits w : Nat) : List Byte :=
  leBytes maxInstrBytes (w % 2 ^ nbits)

/-- The instruction the decoder reads from a word of the opcode table, at the table's (the default) parameters. -/
def decodeTableWord (nbits w : Nat) : Option Instr :=
  match decode Params.default (tableBytes nbits w) with
  | .ok i _ => some i
  | .outOfBounds _ _ => none
  | .illegalInstruction _ => none
  | .invalidRegister _ => none

end Sys2Proof
end

