-- ==== Sys2Proof/Machine/State.lean ====
section
/-! DEFINITION. The state of the block: everything `10_state.md` gives it, the host port's script and replies, and the reasons a step can stop. -/

namespace Sys2Proof.Machine

/-- The register file (R20): a closed set of five named 32-bit cells. -/
structure RegFile where
  r0 : Word
  r1 : Word
  r2 : Word
  r3 : Word
  ip : Word
  deriving DecidableEq, Repr

/-- What a byte that no cell lists reads as: memories are "zero-initialized at construction" (R34, R54, R183). -/
def Memory.unlisted : Byte := 0

/-- A byte buffer of `size` bytes (R34, R35). `cells` lists, at strictly rising addresses, exactly the bytes that differ from
`Memory.unlisted`; the form is `Memory.wf`. -/
structure Memory where
  size : Nat
  cells : List Host.Cell
  deriving DecidableEq, Repr

/-- `construct(size)`: a buffer of `size` zero bytes (R176). -/
def Memory.zero (size : Nat) : Memory where
  size := size
  cells := []

/-- RUN_STATE (R30). -/
inductive RunState where
  | idle
  | ready
  | running
  | halted
  deriving DecidableEq, Repr

/-- HALT_CAUSE (R31). -/
inductive HaltCause where
  | none
  | ret
  | fault
  deriving DecidableEq, Repr

/-- The three fatal errors with what each records (R150 to R153). -/
inductive FatalError where
  | outOfBounds (space : Space) (addr : Word) (width : Width)
  | illegalInstruction (byte : Byte)
  | invalidRegister (byte : Byte)
  deriving DecidableEq, Repr

/-- The halt status (R31), each field at the width R31 gives it. -/
structure HaltStatus where
  /-- HALT_CAUSE. -/
  cause : HaltCause
  /-- RESULT. -/
  result : Word
  /-- FAULT_KIND, by the codes of R150. -/
  faultKind : BitVec 2
  /-- FAULT_IADDR. -/
  faultIaddr : Word
  /-- FAULT_SPACE: PROG = 0, DATA = 1. -/
  faultSpace : BitVec 1
  /-- FAULT_ADDR. -/
  faultAddr : Word
  /-- FAULT_WIDTH: 1, 2 or 4. -/
  faultWidth : BitVec 3
  /-- FAULT_BYTE. -/
  faultByte : Byte
  deriving DecidableEq, Repr

/-- The host-readable status fields (R30, R31). -/
inductive StatusField where
  | runState
  | haltCause
  | result
  | faultKind
  | faultIaddr
  | faultSpace
  | faultAddr
  | faultWidth
  | faultByte
  deriving DecidableEq, Repr

/-- The transactions of the host port (R174 to R187). The space selects the data memory or the program memory the host holds (R183). -/
inductive HostOp where
  /-- construct(DATA_MEM_SIZE, init): a fresh block (R176). -/
  | construct (size : Nat) (init : RegFile)
  /-- getReg(name) (R178). -/
  | getReg (r : Reg)
  /-- setReg(name, value) (R179). -/
  | setReg (r : Reg) (value : Word)
  /-- write(address, bytes, length) (R47, R180). -/
  | write (sp : Space) (addr : Word) (bytes : List Byte) (length : Nat)
  /-- write8(address, value) (R47, R180). -/
  | write8 (sp : Space) (addr : Word) (value : Word)
  /-- write32(address, value) (R47, R180). -/
  | write32 (sp : Space) (addr : Word) (value : Word)
  /-- read8(address) (R181). -/
  | read8 (sp : Space) (addr : Word)
  /-- read32(address) (R181). -/
  | read32 (sp : Space) (addr : Word)
  /-- Memory(PROG_MEM_SIZE): a fresh program memory, all zero (R183). -/
  | newProgram (size : Nat)
  /-- run(program, startAddress); `aliased` binds the data memory itself as the program (R101, R184). -/
  | run (aliased : Bool) (start : Word)
  /-- A read of RUN_STATE or of a field of the halt status (R30, R31). -/
  | readStatus (f : StatusField)
  /-- Memory.inspect() (R186). -/
  | inspectMemory (sp : Space)
  /-- RegisterFile.inspect() (R186). -/
  | inspectRegisters
  deriving DecidableEq, Repr

/-- What a transaction, or a run, gives back to the host (R187). -/
inductive HostReply where
  /-- Done, with nothing to give back. -/
  | done
  /-- A value read, zero-extended to 32 bits. -/
  | value (v : Word)
  /-- The number of bytes written (R47). -/
  | count (n : Nat)
  /-- The failure of a host memory operation (R182). -/
  | outOfBounds
  /-- Result(v): the run ended by RETURN (R106). -/
  | runResult (v : Word)
  /-- Fault(kind, record): the run ended by a fatal error at this instruction address (R154). -/
  | runFault (e : FatalError) (iaddr : Word)
  deriving DecidableEq, Repr

/-- The whole state of the block, plain data. The last three fields are the model's own (log entries 9 and 14). -/
structure State where
  /-- The parameters of R6 that are fixed when the block is built. -/
  params : Params
  /-- R0 to R3 and IP (R20). -/
  regs : RegFile
  /-- Space DATA (R34); its size is DATA_MEM_SIZE. -/
  data : Memory
  /-- The program memory the host holds and binds to a run that is not aliased (R35, R183); its size is PROG_MEM_SIZE. -/
  prog : Memory
  /-- ALIASED, the binding of the latest run (R52). -/
  aliased : Bool
  /-- RUN_STATE (R30). -/
  runState : RunState
  /-- The halt status (R31). -/
  status : HaltStatus
  /-- The host's transactions still to be made, oldest first. The model's own field. -/
  pending : List HostOp
  /-- What the latest transaction or run gave back, none while a run is in progress. The model's own field. -/
  reply : Option HostReply
  /-- How many free values have been drawn. The model's own field. -/
  draws : Nat
  deriving DecidableEq, Repr

/-- Why the machine stops. -/
inductive Fault where
  /-- Raised by `step` alone, when RUN_STATE is IDLE or HALTED and no host transaction is pending: the sequencer has a step only in
  READY and RUNNING (R108 "requires"), and nothing but the host moves the block on (R110, R166). SAFE: the model stops where the
  block waits. Log entry 11. -/
  | awaitingHost
  deriving DecidableEq, Repr

/-- What the model gives no meaning. -/
inductive Refusal where
  /-- An instruction rejected by name in `exec`. No arm does so. SAFE. -/
  | notModelled (mnemonic : String)
  /-- Raised by the host transactions `construct` and `newProgram` for a size above 2^32: "a size above 2^32 is refused at
  construction" (D3, U4). SAFE. Log entry 13. -/
  | notConstructible
  /-- Raised by the host transaction `write` when its length is in bounds but exceeds the bytes given: R47 copies byte i of `bytes`
  for every i < length, and there is no such byte. SAFE. Log entry 13. -/
  | blockShorterThanLength
  deriving DecidableEq, Repr

/-- The halt status of a block that has never halted: HALT_CAUSE is NONE (R39). The other fields are unspecified there; the zeros are
a DESIGN CHOICE that no host read can see (log entry 5). -/
def HaltStatus.initial : HaltStatus where
  cause := .none
  result := 0
  faultKind := 0
  faultIaddr := 0
  faultSpace := 0
  faultAddr := 0
  faultWidth := 0
  faultByte := 0

/-- A freshly constructed block (R39, R176). No program memory has been made yet (an empty one stands for it, log entry 3). -/
def State.construct (params : Params) (size : Nat) (init : RegFile) : State where
  params := params
  regs := init
  data := Memory.zero size
  prog := Memory.zero 0
  aliased := false
  runState := .idle
  status := HaltStatus.initial
  pending := []
  reply := none
  draws := 0

/-- Reset is construction (R170), at the default parameters, with the data memory size 0x2000 and the register values 0 that
`95_test_vectors.md` uses: DESIGN CHOICE, log entries 3 and 4. -/
def State.reset : State :=
  State.construct Params.default 0x2000 ⟨0, 0, 0, 0, 0⟩

end Sys2Proof.Machine
end

