-- ==== Sys2Proof/Machine/Ops.lean ====
section
/-! DEFINITION. The shared operations: bytes of a memory, the typed accesses of `20_memory.md`, the end of a run by RETURN or by a fatal error. -/

namespace Sys2Proof.Machine

/-! ### Cells in canonical form. -/

/-- The byte listed at an address, or the unlisted value. -/
def cellGet : List Host.Cell → Nat → Byte
  | [], _ => Memory.unlisted
  | (k, v) :: cs, a => if k = a then v else cellGet cs a

/-- Put a byte in front of the cells at higher addresses, listing it only when it differs from the unlisted value. -/
def cellCons (a : Nat) (b : Byte) (cs : List Host.Cell) : List Host.Cell :=
  if b = Memory.unlisted then cs else (a, b) :: cs

/-- Write one byte, keeping the addresses rising and no unlisted value listed. -/
def cellSet : List Host.Cell → Nat → Byte → List Host.Cell
  | [], a, b => cellCons a b []
  | (k, v) :: cs, a, b =>
    if k < a then (k, v) :: cellSet cs a b
    else if k = a then cellCons a b cs
    else cellCons a b ((k, v) :: cs)

/-- The canonical form of cells at addresses from `lo` up to below `size`. -/
def cellsWf (size : Nat) : Nat → List Host.Cell → Bool
  | _, [] => true
  | lo, (k, v) :: cs => decide (lo ≤ k) && decide (k < size) && decide (v ≠ Memory.unlisted) && cellsWf size (k + 1) cs

/-- A memory is in canonical form, lists no byte outside itself, and has a size of R6. -/
def Memory.wf (m : Memory) : Bool :=
  decide (m.size ≤ Config.maxMemSize) && cellsWf m.size 0 m.cells

/-! ### Bytes of a memory. -/

/-- byte(S, a). -/
def Memory.byte (m : Memory) (a : Nat) : Byte :=
  cellGet m.cells a

/-- byte(S, a) <- b. -/
def Memory.setByte (m : Memory) (a : Nat) (b : Byte) : Memory :=
  { m with cells := cellSet m.cells a b }

/-- The n bytes at a, a+1, ... -/
def Memory.bytesAt (m : Memory) : Nat → Nat → List Byte
  | _, 0 => []
  | a, n + 1 => m.byte a :: m.bytesAt (a + 1) n

/-- Store bytes at a, a+1, ... -/
def Memory.setBytes (m : Memory) (a : Nat) : List Byte → Memory
  | [] => m
  | b :: bs => (m.setByte a b).setBytes (a + 1) bs

/-- The bounds rule (R45), on unbounded natural numbers. -/
def Memory.inBounds (m : Memory) (a n : Nat) : Bool :=
  decide (a + n ≤ m.size)

/-! ### Typed accesses (R43, R44) and the block write (R47). None is OutOfBounds, and nothing is then read or written (R46). -/

/-- MemRead(S, a, n): an n-byte value, zero-extended to 32 bits (R43). -/
def Memory.read (m : Memory) (a : Nat) (w : Width) : Option Word :=
  if m.inBounds a w.bytes then some (BitVec.ofNat 32 (leNat (m.bytesAt a w.bytes))) else none

/-- The block write of R47. -/
def Memory.writeBlock (m : Memory) (a : Nat) (bytes : List Byte) : Option Memory :=
  if m.inBounds a bytes.length then some (m.setBytes a bytes) else none

/-- MemWrite(S, a, n, v): the low 8n bits of v (R44). -/
def Memory.write (m : Memory) (a : Nat) (w : Width) (v : Word) : Option Memory :=
  m.writeBlock a (leBytes w.bytes v.toNat)

/-- The memory with its size raised to at least `size`; the new bytes are unlisted. -/
def Memory.growTo (m : Memory) (size : Nat) : Memory :=
  { m with size := max m.size size }

/-! ### The memories of the block. -/

/-- Space PROG of the run: the data memory itself when ALIASED (R52). -/
def State.progMem (s : State) : Memory :=
  if s.aliased then s.data else s.prog

/-- The memory a host operation acts on (R180, R183). -/
def State.hostMem (s : State) : Space → Memory
  | .prog => s.prog
  | .data => s.data

/-- Replace the memory a host operation acts on. -/
def State.setHostMem (s : State) (sp : Space) (m : Memory) : State :=
  match sp with
  | .prog => { s with prog := m }
  | .data => { s with data := m }

/-- Replace the data memory. -/
def State.setData (s : State) (m : Memory) : State :=
  { s with data := m }

/-! ### Run state and the codes of the host port. -/

/-- RUN_STATE on the host port (R30). -/
def RunState.code : RunState → BitVec 2
  | .idle => 0
  | .ready => 1
  | .running => 2
  | .halted => 3

/-- HALT_CAUSE on the host port (R31). -/
def HaltCause.code : HaltCause → BitVec 2
  | .none => 0
  | .ret => 1
  | .fault => 2

/-- FAULT_SPACE (R31). -/
def spaceCode : Space → BitVec 1
  | .prog => 0
  | .data => 1

/-- FAULT_WIDTH (R31). -/
def widthCode : Width → BitVec 3
  | .w1 => 1
  | .w2 => 2
  | .w4 => 4

/-- FAULT_KIND (R150). -/
def FatalError.code : FatalError → BitVec 2
  | .outOfBounds _ _ _ => 1
  | .illegalInstruction _ => 2
  | .invalidRegister _ => 3

/-- RUN_STATE <- RUNNING, the start of a step (R102). -/
def State.enterRunning (s : State) : State :=
  { s with runState := .running }

/-! ### The end of a run. -/

/-- The fields a fatal error at instruction address `a` writes (R154); the others keep what they hold (R31). -/
def HaltStatus.record (h : HaltStatus) (e : FatalError) (a : Word) : HaltStatus :=
  let h := { h with cause := .fault, faultKind := e.code, faultIaddr := a }
  match e with
  | .outOfBounds sp addr w => { h with faultSpace := spaceCode sp, faultAddr := addr, faultWidth := widthCode w }
  | .illegalInstruction b => { h with faultByte := b }
  | .invalidRegister b => { h with faultByte := b }

/-- raise E(info) (R154), the one way an error is taken; IP of the state given is the instruction address. IP becomes a free value,
the run returns Fault to the host, and R0 to R3 and every memory stay as they are. -/
def State.raise (s : State) (e : FatalError) : State :=
  { s with
    status := s.status.record e s.regs.ip
    regs := { s.regs with ip := Config.ipAfterFault s.draws }
    runState := .halted
    reply := some (.runFault e s.regs.ip)
    draws := s.draws + 1 }

/-- halt(v) (R106): the run returns Result(v) to the host. -/
def State.halt (s : State) (v : Word) : State :=
  { s with
    status := { s.status with cause := .ret, result := v }
    runState := .halted
    reply := some (.runResult v) }

end Sys2Proof.Machine
end

