-- ==== Sys2Proof/Machine/Operands.lean ====
section
/-! DEFINITION. Operand forms: registers by name (`10_state.md` R20, R178, R179), the absolute address of a store (`42_memory_store.md` R130), the advance of IP (R25, R27). The block has no flags (R29), so there is no flag computation. -/

namespace Sys2Proof.Machine

/-- x[r], or IP. -/
def RegFile.get (f : RegFile) : Reg → Word
  | .r0 => f.r0
  | .r1 => f.r1
  | .r2 => f.r2
  | .r3 => f.r3
  | .ip => f.ip

/-- x[r] <- v, or IP <- v; no other cell changes (R21). -/
def RegFile.set (f : RegFile) (r : Reg) (v : Word) : RegFile :=
  match r with
  | .r0 => { f with r0 := v }
  | .r1 => { f with r1 := v }
  | .r2 => { f with r2 := v }
  | .r3 => { f with r3 := v }
  | .ip => { f with ip := v }

/-- Read a register of the block. -/
def State.getReg (s : State) (r : Reg) : Word :=
  s.regs.get r

/-- Write a register of the block. -/
def State.setReg (s : State) (r : Reg) (v : Word) : State :=
  { s with regs := s.regs.set r v }

/-- ip <- (ip + k) mod 2^32 (R27). -/
def State.advance (s : State) (k : Nat) : State :=
  { s with regs := { s.regs with ip := s.regs.ip + BitVec.ofNat 32 k } }

/-- The effective address of STORE_LIT_MEM: the address field as given, absolute (R130 "Effective address"). -/
def storeAddress (addr : Word) : Nat :=
  addr.toNat

end Sys2Proof.Machine
end

