-- ==== Sys2Proof/Machine/HostPort.lean ====
section
/-! DEFINITION. The host port: the transactions of `70_reset_and_hazards.md` R174 to R187, each one atomic transition between runs. -/

namespace Sys2Proof.Machine

/-- Answer the host. -/
def State.answer (s : State) (r : HostReply) : State :=
  { s with reply := some r }

/-- construct on an existing block: a fresh block takes its place (R176, R114 "a fresh Interpreter"). The parameters,
the program memory the host holds, and the model's own fields stay: DESIGN CHOICE, log entry 18. -/
def State.reconstruct (s : State) (size : Nat) (init : RegFile) : State :=
  { State.construct s.params size init with prog := s.prog, pending := s.pending, draws := s.draws }

/-- A typed write by the host: the count of bytes written, or OutOfBounds and nothing changed (R47, R182). -/
def State.hostWrite (s : State) (sp : Space) (addr : Word) (w : Width) (v : Word) : State :=
  match (s.hostMem sp).write addr.toNat w v with
  | some m => (s.setHostMem sp m).answer (.count w.bytes)
  | none => s.answer .outOfBounds

/-- A typed read by the host: the value, or OutOfBounds (R181, R182). -/
def State.hostRead (s : State) (sp : Space) (addr : Word) (w : Width) : State :=
  match (s.hostMem sp).read addr.toNat w with
  | some v => s.answer (.value v)
  | none => s.answer .outOfBounds

/-- Whether a status field holds a value the host may rely on (R31, column "read by"). -/
def HaltStatus.meaningful (h : HaltStatus) : StatusField → Bool
  | .runState => true
  | .haltCause => true
  | .result => decide (h.cause = .ret)
  | .faultKind => decide (h.cause = .fault)
  | .faultIaddr => decide (h.cause = .fault)
  | .faultSpace => decide (h.cause = .fault) && decide (h.faultKind = 1)
  | .faultAddr => decide (h.cause = .fault) && decide (h.faultKind = 1)
  | .faultWidth => decide (h.cause = .fault) && decide (h.faultKind = 1)
  | .faultByte => decide (h.cause = .fault) && (decide (h.faultKind = 2) || decide (h.faultKind = 3))

/-- The width in bits of a status field (R30, R31). -/
def StatusField.bits : StatusField → Nat
  | .runState => 2
  | .haltCause => 2
  | .result => 32
  | .faultKind => 2
  | .faultIaddr => 32
  | .faultSpace => 1
  | .faultAddr => 32
  | .faultWidth => 3
  | .faultByte => 8

/-- What a status field stores, zero-extended. -/
def State.statusValue (s : State) : StatusField → Word
  | .runState => s.runState.code.setWidth 32
  | .haltCause => s.status.cause.code.setWidth 32
  | .result => s.status.result
  | .faultKind => s.status.faultKind.setWidth 32
  | .faultIaddr => s.status.faultIaddr
  | .faultSpace => s.status.faultSpace.setWidth 32
  | .faultAddr => s.status.faultAddr
  | .faultWidth => s.status.faultWidth.setWidth 32
  | .faultByte => s.status.faultByte.setWidth 32

/-- A read of the status by the host: the field's value where it means something, a free value of the field's width elsewhere (R31). -/
def State.readStatus (s : State) (f : StatusField) : State :=
  if s.status.meaningful f then
    s.answer (.value (s.statusValue f))
  else
    { s with
      reply := some (.value (((Config.unspecifiedStatus s.draws).setWidth f.bits).setWidth 32))
      draws := s.draws + 1 }

/-- run(program, startAddress) up to the first fetch (R101): bind, set IP, READY. Registers R0 to R3, the memories and the halt
status stay; the reply comes when the run ends. -/
def State.startRun (s : State) (aliased : Bool) (start : Word) : State :=
  { s with
    aliased := aliased
    regs := { s.regs with ip := start }
    runState := .ready
    reply := none }

/-- One transaction of the host. -/
def hostExec (op : HostOp) (s : State) : Host.Outcome State Fault Refusal :=
  match op with
  | .construct size init =>
    if size ≤ Config.maxMemSize then .next ((s.reconstruct size init).answer .done) else .refused .notConstructible
  | .getReg r => .next (s.answer (.value (s.getReg r)))
  | .setReg r v => .next ((s.setReg r v).answer .done)
  | .write sp addr bytes length =>
    if (s.hostMem sp).inBounds addr.toNat length then
      if length ≤ bytes.length then
        .next ((s.setHostMem sp ((s.hostMem sp).setBytes addr.toNat (bytes.take length))).answer .done)
      else .refused .blockShorterThanLength
    else .next (s.answer .outOfBounds)
  | .write8 sp addr v => .next (s.hostWrite sp addr .w1 v)
  | .write32 sp addr v => .next (s.hostWrite sp addr .w4 v)
  | .read8 sp addr => .next (s.hostRead sp addr .w1)
  | .read32 sp addr => .next (s.hostRead sp addr .w4)
  | .newProgram size =>
    if size ≤ Config.maxMemSize then .next ({ s with prog := Memory.zero size }.answer .done) else .refused .notConstructible
  | .run aliased start => .next (s.startRun aliased start)
  | .readStatus f => .next (s.readStatus f)
  | .inspectMemory _ => .next (s.answer .done)
  | .inspectRegisters => .next (s.answer .done)

/-- The host's turn: the oldest pending transaction is made and leaves the list. -/
def hostTurn (s : State) : Host.Outcome State Fault Refusal :=
  match s.pending with
  | [] => .fault .awaitingHost
  | op :: ops => hostExec op { s with pending := ops }

end Sys2Proof.Machine
end

