-- ==== Sys2Proof/Machine/Control.lean ====
section
/-! DEFINITION. Control: RETURN (`43_control.md`). -/

namespace Sys2Proof.Machine

/-- RETURN (R140), from the instruction address: IP moves past the instruction and the run ends with the value of R0 (R23). -/
def execRet (s : State) : Host.Outcome State Fault Refusal :=
  .next ((s.advance Op.ret.length).halt (s.getReg .r0))

end Sys2Proof.Machine
end

