-- ==== Sys2Proof/Machine/DataMovement.lean ====
section
/-! DEFINITION. Data movement: MOV_LIT_REG (`41_data_movement.md`). -/

namespace Sys2Proof.Machine

/-- MOV_LIT_REG (R120, R121), from the instruction address: IP moves past the instruction, then the register takes the literal; when
the register is IP the next fetch is at the literal. -/
def execMovLitReg (lit : Word) (reg : Reg) (s : State) : Host.Outcome State Fault Refusal :=
  .next ((s.advance Op.movLitReg.length).setReg reg lit)

end Sys2Proof.Machine
end

