-- ==== Sys2Proof/Machine/MemoryStore.lean ====
section
/-! DEFINITION. Memory store: STORE_LIT_MEM (`42_memory_store.md`). -/

namespace Sys2Proof.Machine

/-- STORE_LIT_MEM (R130), from the instruction address: the four bytes of DATA at the address take the literal, little-endian, or
OutOfBounds(DATA, addr, 4) is raised and nothing is written. -/
def execStoreLitMem (lit addr : Word) (s : State) : Host.Outcome State Fault Refusal :=
  match s.data.write (storeAddress addr) .w4 lit with
  | some m => .next ((s.advance Op.storeLitMem.length).setData m)
  | none => .next (s.raise (.outOfBounds .data addr .w4))

end Sys2Proof.Machine
end

