-- ==== Sys2Proof/Machine/Dispatch.lean ====
section
/-! DEFINITION. The effect of each instruction (`40_core_loop.md` R104), one arm per constructor. The state given holds the instruction's own address in IP. -/

namespace Sys2Proof.Machine

def exec (i : Instr) (s : State) : Host.Outcome State Fault Refusal :=
  match i with
  | .movLitReg lit reg => Sys2Proof.Machine.execMovLitReg lit reg s
  | .storeLitMem lit addr => Sys2Proof.Machine.execStoreLitMem lit addr s
  | .ret => Sys2Proof.Machine.execRet s

end Sys2Proof.Machine
end

