-- ==== Sys2Proof/Machine/Sequencer.lean ====
section
/-! DEFINITION. One step of the sequencer: fetch, decode, execute (`40_core_loop.md` R102 to R108). -/

namespace Sys2Proof.Machine

/-- Where a field at natural-number address `a` of the instruction stream is read: at `a` itself, the sum of R120, R130 and R155 (the
default), or at `a` modulo 2^32 in a block where IP wraps between two fields (R103 taken alone). The two differ only from 2^32 on, in
an instruction that R27 gives no wrap (log entry 7). -/
def State.fieldAddress (s : State) (a : Nat) : Nat :=
  if s.params.fieldsWrap then a % 2 ^ 32 else a

/-- The MemRead(PROG, ip, w) of R102 and R103, with the address of the field after it. -/
def State.fetchField (s : State) : FieldReader Nat := fun w a =>
  (s.progMem.read (s.fieldAddress a) w).map fun v => (v, a + w.bytes)

/-- What the sequencer fetches and decodes at IP (R102, R103). -/
def State.fetchInstr (s : State) : DecodeResult Nat :=
  decodeFrom s.params s.fetchField s.regs.ip.toNat

/-- One instruction, from its fetch to its commit, its halt or its fatal error, as one transition (R109). -/
def stepRun (s : State) : Host.Outcome State Fault Refusal :=
  match s.fetchInstr with
  | .ok i _ => exec i s.enterRunning
  | .outOfBounds a w => .next (s.enterRunning.raise (.outOfBounds .prog (BitVec.ofNat 32 a) w))
  | .illegalInstruction b => .next (s.enterRunning.raise (.illegalInstruction b))
  | .invalidRegister b => .next (s.enterRunning.raise (.invalidRegister b))

end Sys2Proof.Machine
end

