-- ==== Sys2Proof/Machine/Step.lean ====
section
/-! DEFINITION. One step of the block: the sequencer's in READY and RUNNING, the host's in IDLE and HALTED (`40_core_loop.md` R108, R110; `70_reset_and_hazards.md` R175, R185). -/

namespace Sys2Proof.Machine

/-- One transition of the block. -/
def step (s : State) : Host.Outcome State Fault Refusal :=
  match s.runState with
  | .ready => stepRun s
  | .running => stepRun s
  | .idle => hostTurn s
  | .halted => hostTurn s

/-- The state with one instruction, given as the opcode table numbers its bits, placed so that the next step fetches and runs it. It
stands for the host's load of a program and its `run` (R172): a program memory of its own holds the bytes at IP, and the run is in
progress. IP moves to 0 only where the longest instruction would not fit below 2^32. Log entry 12. -/
def State.withFetchWord (s : State) (nbits w : Nat) : State :=
  let a : Word := if s.regs.ip.toNat + maxInstrBytes ≤ Config.maxMemSize then s.regs.ip else 0
  { s with
    regs := { s.regs with ip := a }
    prog := (s.prog.growTo (a.toNat + maxInstrBytes)).setBytes a.toNat (tableBytes nbits w)
    aliased := false
    runState := if s.runState = .running then .running else .ready }

end Sys2Proof.Machine
end

