-- ==== Sys2Proof/Machine/Reference.lean ====
section
/-! DEFINITION. The consolidated step of `40_core_loop.md` R108, written as the rule writes it: one read after another, with no table and no window of bytes. `step` is the model; this text is what a reader compares it with. -/

namespace Sys2Proof.Machine

/-- `v <- MemRead(PROG, ip, w); ip <- (ip + w) mod 2^32` (R103, R108). -/
def State.readField (s : State) (w : Width) : Except FatalError (Word × State) :=
  match s.progMem.read s.regs.ip.toNat w with
  | some v => .ok (v, s.advance w.bytes)
  | none => .error (.outOfBounds .prog s.regs.ip w)

/-- The body of R108's `step()`: the state it leaves, or the fatal error it raises. -/
def referenceBody (s : State) : Except FatalError State := do
  let (opcode, s) ← s.enterRunning.readField .w1
  let opcode := opcode.setWidth 8
  if opcode = s.params.opcMovLitReg then
    let (lit, s) ← s.readField .w4
    let (b, s) ← s.readField .w1
    match decodeReg s.params (b.setWidth 8) with
    | none => .error (.invalidRegister (b.setWidth 8))
    | some r => .ok (s.setReg r lit)
  else if opcode = s.params.opcStoreLitMem then
    let (lit, s) ← s.readField .w4
    let (addr, s) ← s.readField .w4
    match s.data.write addr.toNat .w4 lit with
    | none => .error (.outOfBounds .data addr .w4)
    | some m => .ok (s.setData m)
  else if opcode = s.params.opcReturn then
    .ok (s.halt s.regs.r0)
  else
    .error (.illegalInstruction opcode)

/-- R108's `step()` as one function: a raise ends the run at the instruction's own address (R154). -/
def referenceStep (s : State) : State :=
  match referenceBody s with
  | .ok t => t
  | .error e => s.enterRunning.raise e

end Sys2Proof.Machine
end

