-- ==== Sys2Proof/Safety.lean ====
section
/-! DEFINITION. The terms claims use: the outcome of a run, the invariant of the block, the order of the checks of a step, and what one agent leaves alone. -/

namespace Sys2Proof.Machine

/-- The sequencer has a step: `requires RUN_STATE in {READY, RUNNING}` (R108). -/
abbrev State.inRun (s : State) : Prop :=
  s.runState = .ready ∨ s.runState = .running

/-- The host may act: RUN_STATE ∈ {IDLE, HALTED} (R101, R175). -/
abbrev State.betweenRuns (s : State) : Prop :=
  s.runState = .idle ∨ s.runState = .halted

/-- No field of an instruction at IP starts past 2^32 - 1: the premise D5 asks of a claim about addresses of fields, and where it holds
the two readings of log entry 7 agree. It fails only for a program memory of 2^32 bytes and an IP among its last eight addresses. -/
abbrev State.fieldsBelowTop (s : State) : Prop :=
  s.progMem.size < 2 ^ 32 ∨ s.regs.ip.toNat + maxInstrBytes ≤ 2 ^ 32

/-- The fields of an instruction at IP stand at the sums a + 1 and a + 5 on natural numbers, as R120, R130 and R155 write them: in every
block whose fields do not wrap, and in every block where no field starts past 2^32 - 1. -/
abbrev State.fieldsAtSums (s : State) : Prop :=
  s.params.fieldsWrap = false ∨ s.fieldsBelowTop

/-- IP before a field is the instruction address and the bytes before it modulo 2^32, as R102, R103 and R108 write it: in every block
whose fields wrap, and in every block where no field starts past 2^32 - 1. -/
abbrev State.fieldsAtIp (s : State) : Prop :=
  s.params.fieldsWrap = true ∨ s.fieldsBelowTop

/-! ### The outcome of a run (R113). -/

/-- The width a FAULT_WIDTH code stands for. -/
def widthOfCode (c : BitVec 3) : Option Width :=
  if c = 1 then some .w1 else if c = 2 then some .w2 else if c = 4 then some .w4 else none

/-- The fatal error a halt status records, read back from its fields (R31). -/
def HaltStatus.error (h : HaltStatus) : Option FatalError :=
  if h.faultKind = 1 then
    (widthOfCode h.faultWidth).map (FatalError.outOfBounds (if h.faultSpace = 0 then .prog else .data) h.faultAddr)
  else if h.faultKind = 2 then some (.illegalInstruction h.faultByte)
  else if h.faultKind = 3 then some (.invalidRegister h.faultByte)
  else none

/-- R113: in the first state with RUN_STATE = HALTED, Result(RESULT) or Fault(kind, record), as HALT_CAUSE says. -/
def State.outcome (s : State) : Option HostReply :=
  if s.runState = .halted then
    match s.status.cause with
    | .none => none
    | .ret => some (.runResult s.status.result)
    | .fault => s.status.error.map fun e => .runFault e s.status.faultIaddr
  else none

/-! ### The invariant of the block. -/

/-- A halt status the spec allows: "0 is never written" to FAULT_KIND, FAULT_WIDTH is 1, 2 or 4 (R31). -/
def HaltStatus.legal (h : HaltStatus) : Prop :=
  h.cause = .fault → h.error.isSome

/-- What holds in every state of the block: distinct parameters (R6), both memories in canonical form and of a size of R6, a legal
halt status, no halt before the first run ends (IDLE only after construction, R30), and a cause once a run has halted (R106, R154). -/
structure State.Inv (s : State) : Prop where
  params : s.params.wf
  data : s.data.wf = true
  prog : s.prog.wf = true
  legal : s.status.legal
  idle : s.runState = .idle → s.status.cause = .none
  halted : s.runState = .halted → s.status.cause ≠ .none

/-! ### The order of the checks of a step (R155). -/

/-- The unsigned little-endian number in the 4 bytes at an address. -/
def Memory.word (m : Memory) (a : Nat) : Word :=
  m.byte (a + 3) ++ m.byte (a + 2) ++ m.byte (a + 1) ++ m.byte a

/-- The first check of a step that fails, in the order of R155; none when no check fails. Addresses are sums on unbounded naturals,
as R155 writes them, so this is the order of a step where `State.fieldsAtSums` holds. -/
def State.firstFailure (s : State) : Option FatalError :=
  let m := s.progMem
  let a := s.regs.ip.toNat
  let prog (k : Nat) (w : Width) : FatalError := .outOfBounds .prog (BitVec.ofNat 32 (a + k)) w
  if m.size < a + 1 then some (prog 0 .w1)
  else if m.byte a = s.params.opcMovLitReg then
    if m.size < a + 5 then some (prog 1 .w4)
    else if m.size < a + 6 then some (prog 5 .w1)
    else if decodeReg s.params (m.byte (a + 5)) = none then some (.invalidRegister (m.byte (a + 5)))
    else none
  else if m.byte a = s.params.opcStoreLitMem then
    if m.size < a + 5 then some (prog 1 .w4)
    else if m.size < a + 9 then some (prog 5 .w4)
    else if s.data.size < (m.word (a + 5)).toNat + 4 then some (.outOfBounds .data (m.word (a + 5)) .w4)
    else none
  else if m.byte a = s.params.opcReturn then none
  else some (.illegalInstruction (m.byte a))

/-! ### Reads of the halt status. -/

/-- The state after a status read of a field without meaning: the answer is a free value of the field's width (R31, U5, log entry 5). -/
def State.answerFree (s : State) (bits : Nat) : State :=
  { s with reply := some (.value (((Config.unspecifiedStatus s.draws).setWidth bits).setWidth 32)), draws := s.draws + 1 }

/-! ### Comparing runs. -/

/-- The same state with another script of host transactions. -/
def State.withPending (s : State) (ops : List HostOp) : State :=
  { s with pending := ops }

/-- The same state with other values in R1, R2 and R3. -/
def State.withUpper (s : State) (v1 v2 v3 : Word) : State :=
  { s with regs := { s.regs with r1 := v1, r2 := v2, r3 := v3 } }

/-- Two states that agree on everything but R1, R2 and R3. -/
def State.sameButUpper (s t : State) : Prop :=
  t.withUpper 0 0 0 = s.withUpper 0 0 0

/-- Two states that agree on everything but the bytes of the data memory. -/
def State.sameButData (s t : State) : Prop :=
  t.data.size = s.data.size ∧ t.setData (Memory.zero t.data.size) = s.setData (Memory.zero s.data.size)

/-- Two outcomes that are both next states related by `rel`. -/
def nextRelated (rel : State → State → Prop) (x y : Host.Outcome State Fault Refusal) : Prop :=
  ∃ s t, x = .next s ∧ y = .next t ∧ rel s t

/-- The transitions of RUN_STATE that one step of the block can make (R110): the sequencer's step is atomic (R109), so READY may pass
through RUNNING to HALTED; a host transaction leaves RUN_STATE alone unless it starts a run or constructs a fresh block. -/
def RunState.mayStep : RunState → RunState → Bool
  | .idle, .idle => true
  | .idle, .ready => true
  | .ready, .running => true
  | .ready, .halted => true
  | .running, .running => true
  | .running, .halted => true
  | .halted, .halted => true
  | .halted, .ready => true
  | .halted, .idle => true
  | _, _ => false

end Sys2Proof.Machine
end

