-- ==== Sys2Proof/Certificates/Slice0/Obligations.lean ====
section
/-! DEFINITION. The statements for the provers, read from the numbered rules of spec/. -/

open Sys2Proof Sys2Proof.Machine

/-! ### Encoding and decoding (`30_encoding.md`) -/

/-- Every well-formed instruction has an encoding, and decoding it gives the instruction back with every operand, whatever follows. -/
def Obligations.DecodeInvertsEncode : Prop :=
  ∀ p : Params, p.wf → ∀ i : Instr, i.wf p = true →
    ∃ bs, encode p i = some bs ∧ ∀ rest, decode p (bs ++ rest) = .ok i rest

/-- R82: enc lists the bytes the rule writes out, and a sequencer that fetches at an address where all the bytes of enc(i) are in
bounds gets i back and ends past them. -/
def Obligations.EncListsBytesAndDecodesInMemory : Prop :=
  ∀ p : Params, p.wf →
    (∀ lit r b, regId p r = some b → encode p (.movLitReg lit r) =
      some [p.opcMovLitReg, lit.extractLsb' 0 8, lit.extractLsb' 8 8, lit.extractLsb' 16 8, lit.extractLsb' 24 8, b]) ∧
    (∀ lit addr, encode p (.storeLitMem lit addr) =
      some [p.opcStoreLitMem, lit.extractLsb' 0 8, lit.extractLsb' 8 8, lit.extractLsb' 16 8, lit.extractLsb' 24 8,
        addr.extractLsb' 0 8, addr.extractLsb' 8 8, addr.extractLsb' 16 8, addr.extractLsb' 24 8]) ∧
    encode p .ret = some [p.opcReturn] ∧
    ∀ i bs, encode p i = some bs → ∀ s : State, s.params = p → s.progMem.size ≤ 2 ^ 32 →
      s.regs.ip.toNat + bs.length ≤ s.progMem.size → s.progMem.bytesAt s.regs.ip.toNat bs.length = bs →
        s.fetchInstr = .ok i (s.regs.ip.toNat + bs.length)

/-- The other direction: bytes that decode to an instruction are its encoding, and the instruction is well-formed. -/
def Obligations.EncodeInvertsDecode : Prop :=
  ∀ (p : Params) (bytes rest : List Byte) (i : Instr), decode p bytes = .ok i rest →
    i.wf p = true ∧ ∃ bs, encode p i = some bs ∧ bytes = bs ++ rest

/-- R71: the opcode byte alone decides the length, and the lengths are 1, 6 and 9. -/
def Obligations.LengthFollowsFromOpcodeByte : Prop :=
  ∀ (p : Params) (b : Byte) (x y rx ry : List Byte) (i j : Instr),
    decode p (b :: x) = .ok i rx → decode p (b :: y) = .ok j ry →
      i.length = j.length ∧ i.length ∈ [1, 6, 9] ∧ (b :: x).length = i.length + rx.length

/-- R79: decodeReg tries R0 to R3 in order, then IP; with the default ids the bytes 0x00 to 0x03 name R0 to R3 and no other byte
names a register. -/
def Obligations.DecodeRegFollowsOrder : Prop :=
  (∀ (p : Params) (b : Byte), decodeReg p b =
    if b = p.regIdR0 then some .r0 else if b = p.regIdR1 then some .r1 else if b = p.regIdR2 then some .r2
    else if b = p.regIdR3 then some .r3 else if p.regIdIp = some b then some .ip else none) ∧
  decodeReg Params.default 0 = some .r0 ∧ decodeReg Params.default 1 = some .r1 ∧
  decodeReg Params.default 2 = some .r2 ∧ decodeReg Params.default 3 = some .r3 ∧
  ∀ b : Byte, 4 ≤ b.toNat → decodeReg Params.default b = none

/-- R77 at the default opcodes: the illegal opcode bytes are 0x00 and 0x04 to 0xFF, whatever follows them. -/
def Obligations.DefaultIllegalOpcodes : Prop :=
  ∀ (b : Byte) (rest : List Byte),
    decode Params.default (b :: rest) = .illegalInstruction b ↔ b.toNat = 0 ∨ 4 ≤ b.toNat

/-- R83: the three worked encodings, at the default parameters. -/
def Obligations.WorkedEncodings : Prop :=
  encode Params.default (.movLitReg 0x12121212 .r1) = some [0x01, 0x12, 0x12, 0x12, 0x12, 0x01] ∧
  encode Params.default (.storeLitMem 0xffffffff 0x1234) = some [0x02, 0xFF, 0xFF, 0xFF, 0xFF, 0x34, 0x12, 0x00, 0x00] ∧
  encode Params.default .ret = some [0x03] ∧
  decode Params.default [0x01, 0x12, 0x12, 0x12, 0x12, 0x01] = .ok (.movLitReg 0x12121212 .r1) [] ∧
  decode Params.default [0x02, 0xFF, 0xFF, 0xFF, 0xFF, 0x34, 0x12, 0x00, 0x00] = .ok (.storeLitMem 0xffffffff 0x1234) [] ∧
  decode Params.default [0x03] = .ok .ret []

/-! ### The memory controller (`20_memory.md`) -/

/-- R43: an in-bounds read gives the little-endian value of its n bytes, zero-extended; an out-of-bounds read gives nothing. -/
def Obligations.ReadIsLittleEndian : Prop :=
  ∀ (m : Memory) (a : Nat) (w : Width),
    (a + w.bytes ≤ m.size → ∃ v, m.read a w = some v ∧ v.toNat < 256 ^ w.bytes ∧
      ∀ i, i < w.bytes → v.extractLsb' (8 * i) 8 = m.byte (a + i)) ∧
    (m.size < a + w.bytes → m.read a w = none)

/-- R44: an in-bounds write stores the low 8n bits little-endian and changes no other byte; an out-of-bounds write gives no memory. -/
def Obligations.WriteStoresExactlyItsBytes : Prop :=
  ∀ (m : Memory) (a : Nat) (w : Width) (v : Word), m.wf = true →
    (a + w.bytes ≤ m.size → ∃ m', m.write a w v = some m' ∧ m'.size = m.size ∧
      (∀ i, i < w.bytes → m'.byte (a + i) = v.extractLsb' (8 * i) 8) ∧
      ∀ x, x < a ∨ a + w.bytes ≤ x → m'.byte x = m.byte x) ∧
    (m.size < a + w.bytes → m.write a w v = none)

/-- R60: an access succeeds exactly when a + w ≤ s, and a value written is read back with the same width (its low 8 bits for width 1). -/
def Obligations.AccessBoundsAndRoundTrip : Prop :=
  (∀ (m : Memory) (a : Nat) (w : Width) (v : Word),
    ((m.read a w).isSome = true ↔ a + w.bytes ≤ m.size) ∧ ((m.write a w v).isSome = true ↔ a + w.bytes ≤ m.size)) ∧
  (∀ (m m' : Memory) (a : Nat) (v : Word), m.wf = true → m.write a .w4 v = some m' → m'.read a .w4 = some v) ∧
  ∀ (m m' : Memory) (a : Nat) (v : Word), m.wf = true → m.write a .w1 v = some m' →
    m'.read a .w1 = some ((v.extractLsb' 0 8).setWidth 32)

/-- R48: after a 4-byte write, narrower reads see its little-endian bytes. -/
def Obligations.NarrowReadsOfWideWrite : Prop :=
  ∀ (m m' : Memory) (a : Nat) (v : Word), m.wf = true → m.write a .w4 v = some m' →
    (∀ k, k < 4 → m'.read (a + k) .w1 = some ((v.extractLsb' (8 * k) 8).setWidth 32)) ∧
    m'.read a .w2 = some ((v.extractLsb' 0 16).setWidth 32)

/-- The canonical form is unique: two memories in canonical form with the same size and the same bytes are the same data. The form is
the model's own choice (log entry 17). -/
def Obligations.EqualBytesEqualMemory : Prop :=
  ∀ m m' : Memory, m.wf = true → m'.wf = true → m.size = m'.size → (∀ a, m.byte a = m'.byte a) → m = m'

/-! ### One step: fetch, decode, execute (`40_core_loop.md`) -/

/-- R102 to R104: during a run, where the bytes at IP decode to i, or the fetch field by field gives i, step is exec of i at the same
state with RUN_STATE set to RUNNING, and the fetch ends the instruction's length on; where the fetch gives none, the run ends with the
fatal error that names why, with the low 32 bits of the field's address. For an instruction that runs past 2^32 - 1 the fetch is that of
the reading the block follows, the model's own parameter (log entry 7). -/
def Obligations.StepRunsDecodedInstruction : Prop :=
  ∀ s : State, s.inRun →
    (∀ n i rest, s.progMem.size ≤ 2 ^ 32 → s.regs.ip.toNat + n ≤ s.progMem.size →
      decode s.params (s.progMem.bytesAt s.regs.ip.toNat n) = .ok i rest → step s = exec i { s with runState := .running }) ∧
    (∀ i nextAddr, s.fetchInstr = .ok i nextAddr →
      step s = exec i { s with runState := .running } ∧ nextAddr = s.regs.ip.toNat + i.length) ∧
    (∀ a w, s.fetchInstr = .outOfBounds a w →
      step s = .next (s.enterRunning.raise (.outOfBounds .prog (BitVec.ofNat 32 a) w))) ∧
    (∀ b, s.fetchInstr = .illegalInstruction b → step s = .next (s.enterRunning.raise (.illegalInstruction b))) ∧
    (∀ b, s.fetchInstr = .invalidRegister b → step s = .next (s.enterRunning.raise (.invalidRegister b)))

/-- The table-driven step is R108's consolidated step, in every state of a run of a block whose fields wrap, and in every other block
wherever no field starts past 2^32 - 1. Past it the latter follow R120, R130 and R155 instead (log entry 7). -/
def Obligations.StepIsReferenceStep : Prop :=
  ∀ s : State, s.inRun → s.fieldsAtIp → step s = .next (referenceStep s)

/-- R155: the first check that fails, in the rule's order (the spec's decision D7), is the error a step reports; when no check fails the
step reports none. It holds in every state of a run of a block whose fields do not wrap, and in every other block wherever no field
starts past 2^32 - 1. Past it the latter follow R103 instead (log entry 7). -/
def Obligations.FirstFailingCheckIsReported : Prop :=
  ∀ s : State, s.inRun → s.fieldsAtSums →
    (∀ e, s.firstFailure = some e → step s = .next (s.enterRunning.raise e)) ∧
    (s.firstFailure = none → ∃ t, step s = .next t ∧ ¬(t.runState = .halted ∧ t.status.cause = .fault))

/-- R81, R111: while a run is in progress the sequencer always has a next state; no step of a run faults or is refused. -/
def Obligations.RunningStepAlwaysAnswers : Prop :=
  ∀ s : State, s.inRun → ∃ t, step s = .next t ∧ (t.runState = .running ∨ t.runState = .halted)

/-- R25: an instruction of length L at a that completes without a fatal error leaves IP = (a + L) mod 2^32, but for a MOV_LIT_REG
naming IP. -/
def Obligations.IpAdvancesByLength : Prop :=
  ∀ (s t : State) (i : Instr) (nextAddr : Nat), s.inRun → s.fetchInstr = .ok i nextAddr → step s = .next t →
    ¬(t.runState = .halted ∧ t.status.cause = .fault) → (∀ lit, i ≠ .movLitReg lit .ip) →
      t.regs.ip.toNat = (s.regs.ip.toNat + i.length) % 2 ^ 32

/-- R110: RUN_STATE makes no transition but the rule's, and READY is entered only by the host's run. One transition more, HALTED to IDLE
by construct and only by it, is the model's choice and not R110's: a fresh block takes the place of a halted one (log entry 18). -/
def Obligations.RunStateTransitions : Prop :=
  ∀ s t : State, step s = .next t →
    s.runState.mayStep t.runState = true ∧
    (t.runState = .ready → ∃ al st ops, s.pending = .run al st :: ops) ∧
    (s.runState = .halted → t.runState = .idle → ∃ size init ops, s.pending = .construct size init :: ops)

/-- R112: with REG_ID_IP none and a program memory below 2^32 bytes, every run halts within PROG_MEM_SIZE + 1 steps. -/
def Obligations.EveryRunHalts : Prop :=
  ∀ s : State, s.inRun → s.params.regIdIp = none → s.progMem.size < 2 ^ 32 →
    ∃ k, k ≤ s.progMem.size + 1 ∧ ∃ t : State, Host.Core.run Sys2Proof.core k s = .next t ∧ t.runState = .halted

/-- R112: a run may never halt, and the model admits one of each kind, in a state that meets the block's invariant. When REG_ID_IP is
not none: a MOV_LIT_REG that sets IP back to itself (vector N2). When the program memory has 2^32 bytes, REG_ID_IP none: a program whose
IP wraps for ever, in a block whose fields wrap (log entry 7). -/
def Obligations.SomeRunNeverHalts : Prop :=
  (∃ s : State, s.Inv ∧ s.inRun ∧ s.params.regIdIp ≠ none ∧ s.progMem.size < 2 ^ 32 ∧
    ∀ k, ∃ t : State, Host.Core.run Sys2Proof.core k s = .next t ∧ t.runState ≠ .halted) ∧
  ∃ s : State, s.Inv ∧ s.inRun ∧ s.params.regIdIp = none ∧ s.params.fieldsWrap = true ∧ s.progMem.size = 2 ^ 32 ∧
    ∀ k, ∃ t : State, Host.Core.run Sys2Proof.core k s = .next t ∧ t.runState ≠ .halted

/-- R102, R103, D5 at a program memory of 2^32 bytes in a block whose fields wrap, for every IP: each field is read at the IP the field before it leaves, modulo
2^32, so a field after one that ends at 2^32 - 1 is read at 0, and a field that itself crosses 2^32 - 1 is out of bounds (R45). What a
block whose fields do not wrap does there, R120 and R130 say: `Obligations.MovLitRegStep` and `Obligations.StoreLitMemStep`. The parameter
that tells the two apart is the model's own (log entry 7). -/
def Obligations.FieldsFollowWrappedIp : Prop :=
  ∀ s : State, s.inRun → s.params.wf → s.params.fieldsWrap = true → s.progMem.size = 2 ^ 32 →
    (s.progMem.byte s.regs.ip.toNat = s.params.opcMovLitReg ∨ s.progMem.byte s.regs.ip.toNat = s.params.opcStoreLitMem →
      2 ^ 32 < (s.regs.ip + 1).toNat + 4 → step s = .next (s.enterRunning.raise (.outOfBounds .prog (s.regs.ip + 1) .w4))) ∧
    (s.progMem.byte s.regs.ip.toNat = s.params.opcMovLitReg → (s.regs.ip + 1).toNat + 4 ≤ 2 ^ 32 →
      (decodeReg s.params (s.progMem.byte (s.regs.ip + 5).toNat) = none →
        step s = .next (s.enterRunning.raise (.invalidRegister (s.progMem.byte (s.regs.ip + 5).toNat)))) ∧
      ∀ r, decodeReg s.params (s.progMem.byte (s.regs.ip + 5).toNat) = some r →
        step s = exec (.movLitReg (s.progMem.word (s.regs.ip + 1).toNat) r) { s with runState := .running }) ∧
    (s.progMem.byte s.regs.ip.toNat = s.params.opcStoreLitMem → (s.regs.ip + 1).toNat + 4 ≤ 2 ^ 32 →
      (2 ^ 32 < (s.regs.ip + 5).toNat + 4 → step s = .next (s.enterRunning.raise (.outOfBounds .prog (s.regs.ip + 5) .w4))) ∧
      ((s.regs.ip + 5).toNat + 4 ≤ 2 ^ 32 →
        step s = exec (.storeLitMem (s.progMem.word (s.regs.ip + 1).toNat) (s.progMem.word (s.regs.ip + 5).toNat))
          { s with runState := .running }))

/-- R113 (and R106, R154): in the first state with RUN_STATE = HALTED, what the run gives back to the host is the outcome its halt
status records, Result(RESULT) or Fault(kind, record). -/
def Obligations.RunReturnsRecordedOutcome : Prop :=
  ∀ s t : State, s.inRun → step s = .next t → t.runState = .halted → t.outcome.isSome = true ∧ t.reply = t.outcome

/-! ### The instructions -/

/-- MOV_LIT_REG to a general register completes in every state: the register holds the literal, IP moves 6 on, nothing else changes. -/
def Obligations.MovLitRegCompletes : Prop :=
  ∀ (lit : Word) (r : Reg) (s : State), r ≠ .ip → ∃ t, exec (.movLitReg lit r) s = .next t ∧
    t.getReg r = lit ∧ t.regs.ip = s.regs.ip + 6 ∧ (∀ q, q ≠ r → q ≠ .ip → t.getReg q = s.getReg q) ∧
    t.data = s.data ∧ t.prog = s.prog ∧ t.status = s.status ∧ t.runState = s.runState ∧ t.params = s.params ∧
    t.aliased = s.aliased ∧ t.pending = s.pending ∧ t.reply = s.reply ∧ t.draws = s.draws

/-- R121: MOV_LIT_REG naming IP completes in every state: the next fetch is at the literal, no general register and no byte changes. -/
def Obligations.MovLitIpCompletes : Prop :=
  ∀ (lit : Word) (s : State), ∃ t, exec (.movLitReg lit .ip) s = .next t ∧
    t.regs.ip = lit ∧ (∀ q, q ≠ .ip → t.getReg q = s.getReg q) ∧
    t.data = s.data ∧ t.prog = s.prog ∧ t.status = s.status ∧ t.runState = s.runState ∧ t.params = s.params ∧
    t.aliased = s.aliased ∧ t.pending = s.pending ∧ t.reply = s.reply ∧ t.draws = s.draws

/-- STORE_LIT_MEM in bounds completes: the four bytes at its effective address hold the literal, little-endian; every other byte of
data memory, every register but IP, and everything else is unchanged. -/
def Obligations.StoreLitMemCompletes : Prop :=
  ∀ (lit addr : Word) (s : State), s.data.wf = true → storeAddress addr + 4 ≤ s.data.size →
    ∃ t, exec (.storeLitMem lit addr) s = .next t ∧
      (∀ k, k < 4 → t.data.byte (storeAddress addr + k) = lit.extractLsb' (8 * k) 8) ∧
      (∀ x, x < storeAddress addr ∨ storeAddress addr + 4 ≤ x → t.data.byte x = s.data.byte x) ∧
      t.data.size = s.data.size ∧ t.regs.ip = s.regs.ip + 9 ∧ (∀ q, q ≠ .ip → t.getReg q = s.getReg q) ∧
      t.prog = s.prog ∧ t.status = s.status ∧ t.runState = s.runState ∧ t.params = s.params ∧
      t.aliased = s.aliased ∧ t.pending = s.pending ∧ t.reply = s.reply ∧ t.draws = s.draws

/-- STORE_LIT_MEM out of bounds raises OutOfBounds(DATA, addr, 4), with no wrap at 2^32: the data memory is unchanged. -/
def Obligations.StoreLitMemOutOfBounds : Prop :=
  ∀ (lit addr : Word) (s : State), s.data.size < storeAddress addr + 4 →
    exec (.storeLitMem lit addr) s = .next (s.raise (.outOfBounds .data addr .w4)) ∧
    (s.raise (.outOfBounds .data addr .w4)).data = s.data

/-- RETURN completes in every state: the run halts with R0 as its result, IP moves 1 on, no other register and no byte changes, and
the fault fields keep what they hold. -/
def Obligations.ReturnCompletes : Prop :=
  ∀ s : State, ∃ t, exec .ret s = .next t ∧
    t.runState = .halted ∧ t.status = { s.status with cause := .ret, result := s.regs.r0 } ∧
    t.reply = some (.runResult s.regs.r0) ∧ t.regs = { s.regs with ip := s.regs.ip + 1 } ∧
    t.data = s.data ∧ t.prog = s.prog ∧ t.params = s.params ∧ t.aliased = s.aliased ∧ t.pending = s.pending ∧ t.draws = s.draws

/-- R120: a step at a MOV_LIT_REG, with the bounds of each field, the register id and the effect on a general register. The order of
the two field checks is the spec's decision D7. It holds in every state of a run of a block whose fields do not wrap, and in every other
block wherever no field starts past 2^32 - 1 (past it: `Obligations.FieldsFollowWrappedIp`, log entry 7). -/
def Obligations.MovLitRegStep : Prop :=
  ∀ s : State, s.inRun → s.fieldsAtSums →
    (s.progMem.size < s.regs.ip.toNat + 1 → step s = .next (s.enterRunning.raise (.outOfBounds .prog s.regs.ip .w1))) ∧
    (s.regs.ip.toNat + 1 ≤ s.progMem.size → s.progMem.byte s.regs.ip.toNat = s.params.opcMovLitReg →
      (s.progMem.size < s.regs.ip.toNat + 5 →
        step s = .next (s.enterRunning.raise (.outOfBounds .prog (s.regs.ip + 1) .w4))) ∧
      (s.regs.ip.toNat + 5 ≤ s.progMem.size → s.progMem.size < s.regs.ip.toNat + 6 →
        step s = .next (s.enterRunning.raise (.outOfBounds .prog (s.regs.ip + 5) .w1))) ∧
      (s.regs.ip.toNat + 6 ≤ s.progMem.size →
        (decodeReg s.params (s.progMem.byte (s.regs.ip.toNat + 5)) = none →
          step s = .next (s.enterRunning.raise (.invalidRegister (s.progMem.byte (s.regs.ip.toNat + 5))))) ∧
        ∀ r, r ≠ .ip → decodeReg s.params (s.progMem.byte (s.regs.ip.toNat + 5)) = some r →
          step s = .next { s with
            runState := .running
            regs := ({ s.regs with ip := s.regs.ip + 6 } : RegFile).set r (s.progMem.word (s.regs.ip.toNat + 1)) }))

/-- R121 (the spec's decision D2): a step at a MOV_LIT_REG whose register id names IP sets IP to the literal; no general register, no
data byte and nothing else changes. With the default parameters no byte names IP. -/
def Obligations.MovLitIpStep : Prop :=
  (∀ s : State, s.inRun → s.progMem.size ≤ 2 ^ 32 → s.regs.ip.toNat + 6 ≤ s.progMem.size →
    s.progMem.byte s.regs.ip.toNat = s.params.opcMovLitReg →
    decodeReg s.params (s.progMem.byte (s.regs.ip.toNat + 5)) = some .ip →
      step s = .next { s with
        runState := .running
        regs := { s.regs with ip := s.progMem.word (s.regs.ip.toNat + 1) } }) ∧
  ∀ b, decodeReg Params.default b ≠ some .ip

/-- R130: a step at a STORE_LIT_MEM, with the bounds of each field and of the write, and the effect. The order of the two field checks
is the spec's decision D7. It holds in every state of a run of a block whose fields do not wrap, and in every other block wherever no
field starts past 2^32 - 1 (past it: `Obligations.FieldsFollowWrappedIp`, log entry 7). -/
def Obligations.StoreLitMemStep : Prop :=
  ∀ s : State, s.inRun → s.fieldsAtSums → s.params.wf → s.data.wf = true →
    (s.progMem.size < s.regs.ip.toNat + 1 → step s = .next (s.enterRunning.raise (.outOfBounds .prog s.regs.ip .w1))) ∧
    (s.regs.ip.toNat + 1 ≤ s.progMem.size → s.progMem.byte s.regs.ip.toNat = s.params.opcStoreLitMem →
      (s.progMem.size < s.regs.ip.toNat + 5 →
        step s = .next (s.enterRunning.raise (.outOfBounds .prog (s.regs.ip + 1) .w4))) ∧
      (s.regs.ip.toNat + 5 ≤ s.progMem.size → s.progMem.size < s.regs.ip.toNat + 9 →
        step s = .next (s.enterRunning.raise (.outOfBounds .prog (s.regs.ip + 5) .w4))) ∧
      (s.regs.ip.toNat + 9 ≤ s.progMem.size →
        (s.data.size < (s.progMem.word (s.regs.ip.toNat + 5)).toNat + 4 →
          step s = .next (s.enterRunning.raise (.outOfBounds .data (s.progMem.word (s.regs.ip.toNat + 5)) .w4))) ∧
        ((s.progMem.word (s.regs.ip.toNat + 5)).toNat + 4 ≤ s.data.size →
          ∃ m, step s = .next { s with runState := .running, regs := { s.regs with ip := s.regs.ip + 9 }, data := m } ∧
            m.size = s.data.size ∧ m.word (s.progMem.word (s.regs.ip.toNat + 5)).toNat = s.progMem.word (s.regs.ip.toNat + 1) ∧
            ∀ x, x < (s.progMem.word (s.regs.ip.toNat + 5)).toNat ∨ (s.progMem.word (s.regs.ip.toNat + 5)).toNat + 4 ≤ x →
              m.byte x = s.data.byte x)))

/-- R140 whole: a step at a RETURN halts the run with the value of R0, or its one byte is out of bounds. -/
def Obligations.ReturnStep : Prop :=
  ∀ s : State, s.inRun → s.params.wf →
    (s.progMem.size < s.regs.ip.toNat + 1 → step s = .next (s.enterRunning.raise (.outOfBounds .prog s.regs.ip .w1))) ∧
    (s.regs.ip.toNat + 1 ≤ s.progMem.size → s.progMem.byte s.regs.ip.toNat = s.params.opcReturn →
      step s = .next { s with
        runState := .halted
        status := { s.status with cause := .ret, result := s.regs.r0 }
        reply := some (.runResult s.regs.r0)
        regs := { s.regs with ip := s.regs.ip + 1 } })

/-- R131: during a run a byte of data memory changes only by a STORE_LIT_MEM, and only among the four bytes at its address. -/
def Obligations.OnlyStoreChangesData : Prop :=
  ∀ (s t : State) (x : Nat), s.inRun → s.data.wf = true → step s = .next t → t.data.byte x ≠ s.data.byte x →
    ∃ lit addr nextAddr, s.fetchInstr = .ok (.storeLitMem lit addr) nextAddr ∧
      storeAddress addr ≤ x ∧ x < storeAddress addr + 4

/-! ### Fatal errors (`60_exceptions.md`) -/

/-- R154: what raise records for each error (R150's codes), what it leaves unchanged, and that IP becomes a free value. -/
def Obligations.RaiseRecordsError : Prop :=
  ∀ (s : State) (e : FatalError),
    (s.raise e).status.cause = .fault ∧ (s.raise e).status.faultIaddr = s.regs.ip ∧
    (match e with
      | .outOfBounds sp addr w => (s.raise e).status.faultKind = 1 ∧ (s.raise e).status.faultSpace = (if sp = .prog then 0 else 1) ∧
          (s.raise e).status.faultAddr = addr ∧ (s.raise e).status.faultWidth.toNat = w.bytes
      | .illegalInstruction b => (s.raise e).status.faultKind = 2 ∧ (s.raise e).status.faultByte = b
      | .invalidRegister b => (s.raise e).status.faultKind = 3 ∧ (s.raise e).status.faultByte = b) ∧
    (s.raise e).regs = { s.regs with ip := Config.ipAfterFault s.draws } ∧ (s.raise e).draws = s.draws + 1 ∧
    (s.raise e).runState = .halted ∧ (s.raise e).reply = some (.runFault e s.regs.ip) ∧
    (s.raise e).data = s.data ∧ (s.raise e).prog = s.prog ∧ (s.raise e).params = s.params ∧
    (s.raise e).aliased = s.aliased ∧ (s.raise e).pending = s.pending

/-- R154, R158: a step that ends in a fatal error leaves R0 to R3 and every byte of both memories as they were when its fetch began,
and records the address of the failing instruction. -/
def Obligations.FatalErrorCommitsNothing : Prop :=
  ∀ s t : State, s.inRun → step s = .next t → t.runState = .halted → t.status.cause = .fault →
    (∀ q, q ≠ .ip → t.getReg q = s.getReg q) ∧ t.data = s.data ∧ t.prog = s.prog ∧ t.status.faultIaddr = s.regs.ip ∧
    t.status.result = s.status.result

/-- R31: the halt status is written only when a run halts; a step that does not halt, a new run, and every host transaction but the
construction of a fresh block leave it as it is. -/
def Obligations.StatusWrittenOnlyAtHalt : Prop :=
  ∀ s t : State, step s = .next t →
    (s.inRun → t.runState = .running → t.status = s.status) ∧
    (s.betweenRuns → (∀ size init ops, s.pending ≠ .construct size init :: ops) → t.status = s.status)

/-! ### The invariant and reset -/

/-- Every step of the block, the sequencer's and the host's, keeps the invariant: distinct parameters, canonical memories of a legal
size, a legal halt status, and a run state that agrees with it. -/
def Obligations.StepKeepsInv : Prop :=
  ∀ s t : State, s.Inv → step s = .next t → t.Inv

/-- The invariant holds at reset. -/
def Obligations.ResetHasInv : Prop :=
  State.reset.Inv

/-- R39: the value of every piece of state after construction; the unspecified status fields are read as free values. -/
def Obligations.ConstructionValues : Prop :=
  ∀ (p : Params) (size : Nat) (init : RegFile),
    (State.construct p size init).regs = init ∧ (State.construct p size init).data.size = size ∧
    (∀ a, (State.construct p size init).data.byte a = 0) ∧ (∀ n a, (Memory.zero n).byte a = 0) ∧
    (State.construct p size init).runState = .idle ∧ (State.construct p size init).status.cause = .none ∧
    (∀ f, f ≠ .runState → f ≠ .haltCause → ∀ s : State, s.status = (State.construct p size init).status →
      hostExec (.readStatus f) s = .next { s with
        reply := some (.value (((Config.unspecifiedStatus s.draws).setWidth f.bits).setWidth 32))
        draws := s.draws + 1 })

/-- The reset state's own values: construction at the default parameters. The data memory size 0x2000 and the register values 0 are
the model's choice (log entries 3 and 4), and so are the default parameters (log entries 1, 2 and 7). -/
def Obligations.ResetIsDefaultConstruction : Prop :=
  State.reset = State.construct Params.default 0x2000 ⟨0, 0, 0, 0, 0⟩ ∧ State.reset.prog.size = 0 ∧ State.reset.pending = []

/-! ### The host port (`70_reset_and_hazards.md`) -/

/-- R101: run binds the program, sets IP to the start address and RUN_STATE to READY; R0 to R3, the memories and the halt status are
not changed. -/
def Obligations.RunStartsAtStartAddress : Prop :=
  ∀ (s : State) (al : Bool) (st : Word) (ops : List HostOp), s.betweenRuns → s.pending = .run al st :: ops →
    ∃ t, step s = .next t ∧ t.progMem = (if al then s.data else s.prog) ∧ t.aliased = al ∧ t.regs.ip = st ∧ t.runState = .ready ∧
      (∀ q, q ≠ .ip → t.getReg q = s.getReg q) ∧ t.data = s.data ∧ t.prog = s.prog ∧ t.status = s.status ∧
      t.params = s.params ∧ t.draws = s.draws ∧ t.pending = ops

/-- R38: R0 to R3 and the data memory keep their values from the end of one run to the start of the next unless the host writes them or
constructs a fresh block, and IP keeps its value until the next run starts, whose start address overwrites it. -/
def Obligations.StatePersistsBetweenRuns : Prop :=
  ∀ (s t : State) (op : HostOp) (ops : List HostOp), s.betweenRuns → s.pending = op :: ops → step s = .next t →
    (∀ size init, op ≠ .construct size init) → (∀ r v, op ≠ .setReg r v) →
      (∀ q, q ≠ .ip → t.getReg q = s.getReg q) ∧
      ((∀ addr bytes n, op ≠ .write .data addr bytes n) → (∀ addr v, op ≠ .write8 .data addr v) →
        (∀ addr v, op ≠ .write32 .data addr v) → t.data = s.data) ∧
      ((∀ al st, op ≠ .run al st) → t.regs.ip = s.regs.ip) ∧
      ∀ al st, op = .run al st → t.regs.ip = st

/-- R185: what the host has pending neither changes a step of a run nor is changed by it. -/
def Obligations.HostInertDuringRun : Prop :=
  ∀ (s : State) (ops : List HostOp), s.inRun →
    ∃ t, step s = .next t ∧ t.pending = s.pending ∧ step (s.withPending ops) = .next (t.withPending ops)

/-- R174, R185: between runs a step is the host's oldest pending transaction, made on the state without it. That the transactions stand
in a list is the model's choice (log entry 9). -/
def Obligations.HostStepMakesOldestTransaction : Prop :=
  ∀ (s : State) (op : HostOp) (ops : List HostOp), s.betweenRuns → s.pending = op :: ops →
    step s = hostExec op { s with pending := ops }

/-- R108, R110: in IDLE and HALTED with nothing pending the block waits for the host; the step stops by name (log entry 11). -/
def Obligations.WaitsForHostBetweenRuns : Prop :=
  ∀ s : State, s.betweenRuns → s.pending = [] → step s = .fault .awaitingHost

/-- R178, R179: getReg answers the register's value and changes nothing; setReg writes that register and no other, and a value written
to IP is overwritten by the start address of the next run. -/
def Obligations.HostRegisterAccess : Prop :=
  ∀ (s : State) (r : Reg) (v : Word),
    hostExec (.getReg r) s = .next { s with reply := some (.value (s.getReg r)) } ∧
    ∃ t, hostExec (.setReg r v) s = .next t ∧ t.getReg r = v ∧ (∀ q, q ≠ r → t.getReg q = s.getReg q) ∧
      t.data = s.data ∧ t.prog = s.prog ∧ t.status = s.status ∧ t.runState = s.runState ∧ t.params = s.params ∧
      t.aliased = s.aliased ∧ t.pending = s.pending ∧ t.draws = s.draws ∧
      ∀ al st u, hostExec (.run al st) t = .next u → u.regs.ip = st

/-- R47 (its length-0 clause is the spec's inference): the block write copies `length` bytes or fails whole, a length of 0 changes
nothing, and write8 and write32 are the typed writes and answer 1 and 4. That the block write answers `done` where it succeeds is the
model's choice, since R47 gives a count for write8 and write32 only (log entry 9). -/
def Obligations.HostBlockWrite : Prop :=
  ∀ (s : State) (sp : Space) (addr v : Word) (bytes : List Byte) (length : Nat), (s.hostMem sp).wf = true →
    ((s.hostMem sp).size < addr.toNat + length →
      hostExec (.write sp addr bytes length) s = .next { s with reply := some .outOfBounds }) ∧
    (addr.toNat + length ≤ (s.hostMem sp).size → length ≤ bytes.length →
      ∃ m, hostExec (.write sp addr bytes length) s = .next ((s.setHostMem sp m).answer .done) ∧
        m.size = (s.hostMem sp).size ∧ (∀ i (h : i < bytes.length), i < length → m.byte (addr.toNat + i) = bytes[i]) ∧
        (∀ x, x < addr.toNat ∨ addr.toNat + length ≤ x → m.byte x = (s.hostMem sp).byte x) ∧
        (length = 0 → m = s.hostMem sp)) ∧
    (∀ m, (s.hostMem sp).write addr.toNat .w1 v = some m →
      hostExec (.write8 sp addr v) s = .next ((s.setHostMem sp m).answer (.count 1))) ∧
    (∀ m, (s.hostMem sp).write addr.toNat .w4 v = some m →
      hostExec (.write32 sp addr v) s = .next ((s.setHostMem sp m).answer (.count 4)))

/-- R182: a host access that fails the bounds check answers OutOfBounds and changes nothing, RUN_STATE and the halt status included. -/
def Obligations.HostAccessOutOfBounds : Prop :=
  ∀ (s : State) (sp : Space) (addr v : Word),
    ((s.hostMem sp).size < addr.toNat + 1 →
      hostExec (.write8 sp addr v) s = .next { s with reply := some .outOfBounds } ∧
      hostExec (.read8 sp addr) s = .next { s with reply := some .outOfBounds }) ∧
    ((s.hostMem sp).size < addr.toNat + 4 →
      hostExec (.write32 sp addr v) s = .next { s with reply := some .outOfBounds } ∧
      hostExec (.read32 sp addr) s = .next { s with reply := some .outOfBounds }) ∧
    ∀ (bytes : List Byte) (length : Nat), (s.hostMem sp).size < addr.toNat + length →
      hostExec (.write sp addr bytes length) s = .next { s with reply := some .outOfBounds }

/-- R181, R183, R186: read8 and read32 of either memory, in bounds, answer the value of MemRead, and they and inspect change no state of
the block. That inspect answers `done`, with no text, is the model's choice (log entry 16). -/
def Obligations.HostReadsArePure : Prop :=
  ∀ (s : State) (sp : Space) (addr : Word),
    (∀ v, (s.hostMem sp).read addr.toNat .w1 = some v → hostExec (.read8 sp addr) s = .next { s with reply := some (.value v) }) ∧
    (∀ v, (s.hostMem sp).read addr.toNat .w4 = some v → hostExec (.read32 sp addr) s = .next { s with reply := some (.value v) }) ∧
    hostExec (.inspectMemory sp) s = .next { s with reply := some .done } ∧
    hostExec .inspectRegisters s = .next { s with reply := some .done }

/-- R30, R31: RUN_STATE and HALT_CAUSE are read by their codes; every other field is read where R31 says that it is meaningful, and
where it is not, its read is a free value of the field's width (U5, log entry 5). -/
def Obligations.StatusReadsByMeaning : Prop :=
  ∀ s : State,
    hostExec (.readStatus .runState) s = .next { s with reply := some (.value
      (match s.runState with | .idle => 0 | .ready => 1 | .running => 2 | .halted => 3)) } ∧
    hostExec (.readStatus .haltCause) s = .next { s with reply := some (.value
      (match s.status.cause with | .none => 0 | .ret => 1 | .fault => 2)) } ∧
    hostExec (.readStatus .result) s = .next
      (if s.status.cause = .ret then { s with reply := some (.value s.status.result) } else s.answerFree 32) ∧
    hostExec (.readStatus .faultKind) s = .next
      (if s.status.cause = .fault then { s with reply := some (.value (s.status.faultKind.setWidth 32)) } else s.answerFree 2) ∧
    hostExec (.readStatus .faultIaddr) s = .next
      (if s.status.cause = .fault then { s with reply := some (.value s.status.faultIaddr) } else s.answerFree 32) ∧
    hostExec (.readStatus .faultSpace) s = .next
      (if s.status.cause = .fault ∧ s.status.faultKind = 1 then { s with reply := some (.value (s.status.faultSpace.setWidth 32)) }
        else s.answerFree 1) ∧
    hostExec (.readStatus .faultAddr) s = .next
      (if s.status.cause = .fault ∧ s.status.faultKind = 1 then { s with reply := some (.value s.status.faultAddr) }
        else s.answerFree 32) ∧
    hostExec (.readStatus .faultWidth) s = .next
      (if s.status.cause = .fault ∧ s.status.faultKind = 1 then { s with reply := some (.value (s.status.faultWidth.setWidth 32)) }
        else s.answerFree 3) ∧
    hostExec (.readStatus .faultByte) s = .next
      (if s.status.cause = .fault ∧ (s.status.faultKind = 2 ∨ s.status.faultKind = 3) then
        { s with reply := some (.value (s.status.faultByte.setWidth 32)) } else s.answerFree 8)

/-- R176, D3: construct makes a fresh block of a size up to 2^32, and a larger size is refused; so is a larger program memory. That the
fresh block keeps the parameters, and the host its program memory, is the model's choice (log entry 18), and so are the refusals' names
(log entry 13). -/
def Obligations.ConstructionSizes : Prop :=
  ∀ (s : State) (size : Nat) (init : RegFile),
    (size ≤ 2 ^ 32 →
      (∃ t, hostExec (.construct size init) s = .next t ∧ t.regs = init ∧ t.data = Memory.zero size ∧ t.runState = .idle ∧
        t.status.cause = .none ∧ t.params = s.params ∧ t.prog = s.prog) ∧
      hostExec (.newProgram size) s = .next { s with prog := Memory.zero size, reply := some .done }) ∧
    (2 ^ 32 < size → hostExec (.construct size init) s = .refused .notConstructible ∧
      hostExec (.newProgram size) s = .refused .notConstructible)

/-! ### Whole-machine rules -/

/-- R72: "the table is fixed when the block is built": no step changes an opcode value or a register id, nor the model's own parameter. That this holds of a construct
too, which builds a fresh block, is the model's choice (log entry 18). -/
def Obligations.ParamsNeverChange : Prop :=
  ∀ s t : State, step s = .next t → t.params = s.params

/-- R52, R57: no instruction writes the program memory of a run that is not aliased, and no step of any run writes the program memory
the host holds. -/
def Obligations.RunNeverWritesProgram : Prop :=
  ∀ s t : State, s.inRun → step s = .next t →
    t.prog = s.prog ∧ t.aliased = s.aliased ∧ (s.aliased = false → t.progMem = s.progMem)

/-- R57: with ALIASED every byte a STORE_LIT_MEM writes is the byte the next fetch reads at that address. -/
def Obligations.AliasedStoreReachesFetch : Prop :=
  ∀ (lit addr : Word) (s : State), s.data.wf = true → s.aliased = true → storeAddress addr + 4 ≤ s.data.size →
    ∃ t, exec (.storeLitMem lit addr) s = .next t ∧
      (∀ k, k < 4 → t.progMem.byte (storeAddress addr + k) = lit.extractLsb' (8 * k) 8) ∧
      ∀ x, x < storeAddress addr ∨ storeAddress addr + 4 ≤ x → t.progMem.byte x = s.progMem.byte x

/-- R22: no instruction reads R1, R2 or R3: two runs that differ only there stay equal but for them, step by step, and each of the three
either keeps in both runs the value it had or takes in both the same value. -/
def Obligations.UpperRegistersNeverRead : Prop :=
  ∀ (s : State) (v1 v2 v3 : Word), s.inRun →
    nextRelated (fun t t' => t.sameButUpper t' ∧
        ((t.regs.r1 = s.regs.r1 ∧ t'.regs.r1 = v1) ∨ t.regs.r1 = t'.regs.r1) ∧
        ((t.regs.r2 = s.regs.r2 ∧ t'.regs.r2 = v2) ∨ t.regs.r2 = t'.regs.r2) ∧
        ((t.regs.r3 = s.regs.r3 ∧ t'.regs.r3 = v3) ∨ t.regs.r3 = t'.regs.r3))
      (step s) (step (s.withUpper v1 v2 v3))

/-- R130, R131: no instruction reads data memory: two runs, not aliased, that differ only in the bytes of the data memory stay equal but
for them, step by step, and each byte (of memories in canonical form) either keeps in both runs the value it had or takes in both the
same value. -/
def Obligations.DataNeverRead : Prop :=
  ∀ (s : State) (m : Memory), s.inRun → s.aliased = false → m.size = s.data.size →
    nextRelated (fun t t' => t.sameButData t' ∧ (s.data.wf = true → m.wf = true → ∀ a,
        (t.data.byte a = s.data.byte a ∧ t'.data.byte a = m.byte a) ∨ t.data.byte a = t'.data.byte a))
      (step s) (step (s.setData m))
end

