-- ==== Sys2Proof/Laws/Decode.lean ====
section
/-! SUPPORT. The decoder's parts, one lemma each: the dispatch table, the register ids, the operand fields. -/

namespace Sys2Proof

/-- DISPATCH[opcode] (R103), byte by byte. -/
theorem dispatch_eq (p : Params) (b : Byte) :
    dispatch p b = if b = p.opcMovLitReg then some .movLitReg else if b = p.opcStoreLitMem then some .storeLitMem
      else if b = p.opcReturn then some .ret else none := by
  by_cases h1 : p.opcMovLitReg = b
  · simp [dispatch, dispatchTable, h1]
  by_cases h2 : p.opcStoreLitMem = b
  · subst h2
    simp [dispatch, dispatchTable, beq_eq_false_iff_ne.mpr h1, Ne.symm h1]
  by_cases h3 : p.opcReturn = b
  · subst h3
    simp [dispatch, dispatchTable, beq_eq_false_iff_ne.mpr h1, beq_eq_false_iff_ne.mpr h2, Ne.symm h1, Ne.symm h2]
  · simp [dispatch, dispatchTable, beq_eq_false_iff_ne.mpr h1, beq_eq_false_iff_ne.mpr h2, beq_eq_false_iff_ne.mpr h3,
      Ne.symm h1, Ne.symm h2, Ne.symm h3]

/-- A register named by a byte has that byte as its id. -/
theorem regId_of_decodeReg {p : Params} {r : Reg} {b : Byte} (h : decodeReg p b = some r) : regId p r = some b := by
  simpa using List.find?_some h

/-- A register has an id exactly when it is nameable. -/
theorem regId_isSome (p : Params) (r : Reg) : (regId p r).isSome = r.nameable p := by
  cases r <;> simp [regId, Reg.nameable]

/-! ### The decoder on a byte string. -/

/-- The low byte of a 32-bit number. -/
theorem setWidth_ofNat_byte (n : Nat) : (BitVec.ofNat 32 n).setWidth 8 = BitVec.ofNat 8 n := by
  apply BitVec.eq_of_toNat_eq
  simp only [BitVec.toNat_setWidth, BitVec.toNat_ofNat]
  omega

@[simp] theorem decode_nil (p : Params) : decode p [] = .outOfBounds [] .w1 := rfl

/-- The first byte is the opcode. -/
theorem decode_cons (p : Params) (b : Byte) (bs : List Byte) :
    decode p (b :: bs) = match dispatch p b with
      | none => .illegalInstruction b
      | some op =>
        match readFields takeField op.fields {} bs with
        | .short src w => .outOfBounds src w
        | .ok o rest => op.assemble p o rest := by
  have hb : (BitVec.ofNat 32 (leNat [b])).setWidth 8 = b := by simp [leNat]
  rw [decode, decodeFrom, show takeField .w1 (b :: bs) = some (BitVec.ofNat 32 (leNat [b]), bs) from rfl]
  simp only [hb]
  cases dispatch p b with
  | none => rfl
  | some op =>
    dsimp only
    cases readFields takeField op.fields {} bs <;> rfl

/-! Each field read from the bytes at hand: all its bytes are there, or it is short. -/

theorem readFields_nil {σ : Type} (read : FieldReader σ) (o : Operands) (src : σ) : readFields read [] o src = .ok o src := rfl

theorem readFields_literal (fs : List FieldRole) (o : Operands) (bs : List Byte) :
    readFields takeField (.literal :: fs) o bs =
      if 4 ≤ bs.length then readFields takeField fs { o with lit := BitVec.ofNat 32 (leNat (bs.take 4)) } (bs.drop 4)
      else .short bs .w4 := by
  split
  · next h =>
    rw [readFields, show takeField FieldRole.literal.width bs = some (BitVec.ofNat 32 (leNat (bs.take 4)), bs.drop 4) from if_pos h]
    rfl
  · next h =>
    rw [readFields, show takeField FieldRole.literal.width bs = none from if_neg h]
    rfl

theorem readFields_address (fs : List FieldRole) (o : Operands) (bs : List Byte) :
    readFields takeField (.address :: fs) o bs =
      if 4 ≤ bs.length then readFields takeField fs { o with addr := BitVec.ofNat 32 (leNat (bs.take 4)) } (bs.drop 4)
      else .short bs .w4 := by
  split
  · next h =>
    rw [readFields, show takeField FieldRole.address.width bs = some (BitVec.ofNat 32 (leNat (bs.take 4)), bs.drop 4) from if_pos h]
    rfl
  · next h =>
    rw [readFields, show takeField FieldRole.address.width bs = none from if_neg h]
    rfl

theorem readFields_registerId (fs : List FieldRole) (o : Operands) (bs : List Byte) :
    readFields takeField (.registerId :: fs) o bs =
      if 1 ≤ bs.length then readFields takeField fs { o with regByte := BitVec.ofNat 8 (leNat (bs.take 1)) } (bs.drop 1)
      else .short bs .w1 := by
  split
  · next h =>
    rw [readFields, show takeField FieldRole.registerId.width bs = some (BitVec.ofNat 32 (leNat (bs.take 1)), bs.drop 1) from if_pos h]
    simp only [Operands.set, setWidth_ofNat_byte]
  · next h =>
    rw [readFields, show takeField FieldRole.registerId.width bs = none from if_neg h]
    rfl

/-- A word is the number of its four bytes. -/
theorem leNat_leBytes_word (v : Word) : BitVec.ofNat 32 (leNat (leBytes 4 v.toNat)) = v := by
  rw [leNat_leBytes]
  apply BitVec.eq_of_toNat_eq
  have := v.isLt
  simp only [BitVec.toNat_ofNat]
  omega

end Sys2Proof
end

