-- ==== Sys2Proof/Laws/Memory.lean ====
section
/-! SUPPORT. The laws of a memory: canonical form is kept, a written byte reads back, every other byte stays, the form is unique. -/

namespace Sys2Proof.Machine

/-! ### Cells. -/

theorem cellsWf_cons {size lo k : Nat} {v : Byte} {cs : List Host.Cell} :
    cellsWf size lo ((k, v) :: cs) = true ↔ lo ≤ k ∧ k < size ∧ v ≠ Memory.unlisted ∧ cellsWf size (k + 1) cs = true := by
  simp [cellsWf, and_assoc]

theorem cellsWf_lower {size lo lo' : Nat} {cs : List Host.Cell} (h : cellsWf size lo cs = true) (hl : lo' ≤ lo) :
    cellsWf size lo' cs = true := by
  cases cs with
  | nil => rfl
  | cons c cs =>
    obtain ⟨k, v⟩ := c
    rw [cellsWf_cons] at h ⊢
    exact ⟨hl.trans h.1, h.2⟩

theorem cellsWf_grow {size size' lo : Nat} {cs : List Host.Cell} (h : cellsWf size lo cs = true) (hs : size ≤ size') :
    cellsWf size' lo cs = true := by
  induction cs generalizing lo with
  | nil => rfl
  | cons c cs ih =>
    obtain ⟨k, v⟩ := c
    rw [cellsWf_cons] at h ⊢
    exact ⟨h.1, h.2.1.trans_le hs, h.2.2.1, ih h.2.2.2⟩

theorem cellGet_below {size lo a : Nat} {cs : List Host.Cell} (h : cellsWf size lo cs = true) (ha : a < lo) :
    cellGet cs a = Memory.unlisted := by
  induction cs generalizing lo with
  | nil => rfl
  | cons c cs ih =>
    obtain ⟨k, v⟩ := c
    obtain ⟨h1, -, -, h4⟩ := cellsWf_cons.mp h
    rw [cellGet, if_neg (by omega)]
    exact ih h4 (by omega)

theorem cellGet_cellCons {size a x : Nat} {b : Byte} {cs : List Host.Cell} (h : cellsWf size (a + 1) cs = true) :
    cellGet (cellCons a b cs) x = if x = a then b else cellGet cs x := by
  unfold cellCons
  by_cases hb : b = Memory.unlisted
  · rw [if_pos hb]
    split
    · next hx => rw [hb, hx]; exact cellGet_below h (by omega)
    · rfl
  · rw [if_neg hb, cellGet]
    by_cases hx : x = a
    · simp [hx]
    · rw [if_neg (Ne.symm hx), if_neg hx]

theorem cellsWf_cellCons {size lo a : Nat} {b : Byte} {cs : List Host.Cell} (h : cellsWf size (a + 1) cs = true)
    (hl : lo ≤ a) (ha : a < size) : cellsWf size lo (cellCons a b cs) = true := by
  unfold cellCons
  by_cases hb : b = Memory.unlisted
  · rw [if_pos hb]; exact cellsWf_lower h (by omega)
  · rw [if_neg hb, cellsWf_cons]; exact ⟨hl, ha, hb, h⟩

theorem cellGet_cellSet {size lo a x : Nat} {b : Byte} {cs : List Host.Cell} (h : cellsWf size lo cs = true) :
    cellGet (cellSet cs a b) x = if x = a then b else cellGet cs x := by
  induction cs generalizing lo with
  | nil => exact cellGet_cellCons (size := size) rfl
  | cons c cs ih =>
    obtain ⟨k, v⟩ := c
    obtain ⟨h1, h2, h3, h4⟩ := cellsWf_cons.mp h
    simp only [cellSet]
    by_cases hk : k < a
    · rw [if_pos hk, cellGet, ih h4, cellGet]
      by_cases hx : k = x
      · rw [if_pos hx, if_pos hx, if_neg (by omega)]
      · rw [if_neg hx, if_neg hx]
    · rw [if_neg hk]
      by_cases hka : k = a
      · subst hka
        rw [if_pos rfl, cellGet_cellCons h4]
        by_cases hx : x = k
        · rw [if_pos hx, if_pos hx]
        · rw [if_neg hx, if_neg hx, cellGet, if_neg (Ne.symm hx)]
      · rw [if_neg hka]
        exact cellGet_cellCons (cellsWf_cons.mpr ⟨by omega, h2, h3, h4⟩)

theorem cellsWf_cellSet {size lo a : Nat} {b : Byte} {cs : List Host.Cell} (h : cellsWf size lo cs = true)
    (hl : lo ≤ a) (ha : a < size) : cellsWf size lo (cellSet cs a b) = true := by
  induction cs generalizing lo with
  | nil => exact cellsWf_cellCons rfl hl ha
  | cons c cs ih =>
    obtain ⟨k, v⟩ := c
    obtain ⟨h1, h2, h3, h4⟩ := cellsWf_cons.mp h
    simp only [cellSet]
    by_cases hk : k < a
    · rw [if_pos hk, cellsWf_cons]; exact ⟨h1, h2, h3, ih h4 hk⟩
    · rw [if_neg hk]
      by_cases hka : k = a
      · subst hka; rw [if_pos rfl]; exact cellsWf_cellCons h4 hl ha
      · rw [if_neg hka]
        exact cellsWf_cellCons (cellsWf_cons.mpr ⟨by omega, h2, h3, h4⟩) hl ha

/-! ### Memories. -/

theorem Memory.wf_iff {m : Memory} : m.wf = true ↔ m.size ≤ Config.maxMemSize ∧ cellsWf m.size 0 m.cells = true := by
  simp [Memory.wf]

theorem Memory.zero_wf {size : Nat} (h : size ≤ Config.maxMemSize) : (Memory.zero size).wf = true :=
  Memory.wf_iff.mpr ⟨h, rfl⟩

@[simp] theorem Memory.zero_size (size : Nat) : (Memory.zero size).size = size := rfl
@[simp] theorem Memory.zero_byte (size a : Nat) : (Memory.zero size).byte a = 0 := rfl

theorem Memory.growTo_wf {m : Memory} {size : Nat} (h : m.wf = true) (hs : size ≤ Config.maxMemSize) :
    (m.growTo size).wf = true := by
  rw [Memory.wf_iff] at h ⊢
  exact ⟨max_le h.1 hs, cellsWf_grow h.2 (le_max_left _ _)⟩

@[simp] theorem Memory.setByte_size (m : Memory) (a : Nat) (b : Byte) : (m.setByte a b).size = m.size := rfl

theorem Memory.setByte_wf {m : Memory} {a : Nat} (b : Byte) (h : m.wf = true) (ha : a < m.size) :
    (m.setByte a b).wf = true := by
  rw [Memory.wf_iff] at h ⊢
  exact ⟨h.1, cellsWf_cellSet h.2 (Nat.zero_le a) ha⟩

theorem Memory.byte_setByte {m : Memory} (a x : Nat) (b : Byte) (h : m.wf = true) :
    (m.setByte a b).byte x = if x = a then b else m.byte x :=
  cellGet_cellSet (Memory.wf_iff.mp h).2

@[simp] theorem Memory.setBytes_size (m : Memory) (a : Nat) (bs : List Byte) : (m.setBytes a bs).size = m.size := by
  induction bs generalizing m a with
  | nil => rfl
  | cons b bs ih => rw [Memory.setBytes, ih, Memory.setByte_size]

theorem Memory.setBytes_wf {m : Memory} {a : Nat} (bs : List Byte) (h : m.wf = true) (ha : a + bs.length ≤ m.size) :
    (m.setBytes a bs).wf = true := by
  induction bs generalizing m a with
  | nil => exact h
  | cons b bs ih =>
    rw [List.length_cons] at ha
    exact ih (Memory.setByte_wf b h (by omega)) (by rw [Memory.setByte_size]; omega)

/-- Outside the stored bytes every read is as before. -/
theorem Memory.byte_setBytes_out {m : Memory} {a : Nat} (bs : List Byte) (h : m.wf = true) (ha : a + bs.length ≤ m.size)
    (x : Nat) (hx : x < a ∨ a + bs.length ≤ x) : (m.setBytes a bs).byte x = m.byte x := by
  induction bs generalizing m a with
  | nil => rfl
  | cons b bs ih =>
    rw [List.length_cons] at ha hx
    rw [Memory.setBytes, ih (Memory.setByte_wf b h (by omega)) (by rw [Memory.setByte_size]; omega) (by omega),
      Memory.byte_setByte _ _ _ h, if_neg (by omega)]

/-- Inside the stored bytes a read gives the byte stored. -/
theorem Memory.byte_setBytes_in {m : Memory} {a : Nat} (bs : List Byte) (h : m.wf = true) (ha : a + bs.length ≤ m.size)
    (i : Nat) (hi : i < bs.length) : (m.setBytes a bs).byte (a + i) = bs[i] := by
  induction bs generalizing m a i with
  | nil => exact absurd hi (Nat.not_lt_zero i)
  | cons b bs ih =>
    rw [List.length_cons] at ha
    have hw := Memory.setByte_wf b h (show a < m.size by omega)
    cases i with
    | zero =>
      rw [Memory.setBytes, Memory.byte_setBytes_out bs hw (by rw [Memory.setByte_size]; omega) _ (by omega),
        Memory.byte_setByte _ _ _ h, if_pos (Nat.add_zero a), List.getElem_cons_zero]
    | succ i =>
      simp only [Memory.setBytes, show a + (i + 1) = a + 1 + i by omega, List.getElem_cons_succ]
      exact ih hw (by rw [Memory.setByte_size]; omega) i (by simpa using hi)

@[simp] theorem Memory.bytesAt_length (m : Memory) (a n : Nat) : (m.bytesAt a n).length = n := by
  induction n generalizing a with
  | zero => rfl
  | succ n ih => rw [Memory.bytesAt, List.length_cons, ih]

theorem Memory.bytesAt_getElem (m : Memory) (a n i : Nat) (h : i < (m.bytesAt a n).length) :
    (m.bytesAt a n)[i] = m.byte (a + i) := by
  induction n generalizing a i with
  | zero => simp [Memory.bytesAt] at h
  | succ n ih =>
    cases i with
    | zero => rfl
    | succ i =>
      simp only [Memory.bytesAt, List.getElem_cons_succ]
      rw [ih, show a + 1 + i = a + (i + 1) by omega]

theorem Memory.inBounds_iff {m : Memory} {a n : Nat} : m.inBounds a n = true ↔ a + n ≤ m.size := by
  simp [Memory.inBounds]

/-- All a block write can do: in bounds, and then the bytes are stored. -/
theorem Memory.writeBlock_eq_some {m m' : Memory} {a : Nat} {bs : List Byte} :
    m.writeBlock a bs = some m' ↔ a + bs.length ≤ m.size ∧ m' = m.setBytes a bs := by
  unfold Memory.writeBlock
  split
  · next h => simp [Memory.inBounds_iff.mp h, eq_comm]
  · next h => simp [mt Memory.inBounds_iff.mpr h]

/-- All a typed write can do: in bounds, and then the low bytes of the value are stored. -/
theorem Memory.write_eq_some {m m' : Memory} {a : Nat} {w : Width} {v : Word} :
    m.write a w v = some m' ↔ a + w.bytes ≤ m.size ∧ m' = m.setBytes a (leBytes w.bytes v.toNat) := by
  rw [Memory.write, Memory.writeBlock_eq_some, leBytes_length]

theorem Memory.write_eq_none {m : Memory} {a : Nat} {w : Width} {v : Word} :
    m.write a w v = none ↔ m.size < a + w.bytes := by
  rw [Memory.write, Memory.writeBlock, leBytes_length]
  split
  · next h => simpa using Memory.inBounds_iff.mp h
  · next h => simpa using mt Memory.inBounds_iff.mpr h

/-- A typed write keeps the canonical form. -/
theorem Memory.write_wf {m m' : Memory} {a : Nat} {w : Width} {v : Word} (h : m.wf = true) (hw : m.write a w v = some m') :
    m'.wf = true := by
  obtain ⟨hb, rfl⟩ := Memory.write_eq_some.mp hw
  exact Memory.setBytes_wf _ h (by rwa [leBytes_length])

theorem Memory.write_size {m m' : Memory} {a : Nat} {w : Width} {v : Word} (hw : m.write a w v = some m') :
    m'.size = m.size := by
  obtain ⟨-, rfl⟩ := Memory.write_eq_some.mp hw
  exact Memory.setBytes_size _ _ _

/-- A block write keeps the canonical form. -/
theorem Memory.writeBlock_wf {m m' : Memory} {a : Nat} {bs : List Byte} (h : m.wf = true) (hw : m.writeBlock a bs = some m') :
    m'.wf = true := by
  obtain ⟨hb, rfl⟩ := Memory.writeBlock_eq_some.mp hw
  exact Memory.setBytes_wf _ h hb

/-- A typed read gives the little-endian number of the bytes, in bounds. -/
theorem Memory.read_eq_some {m : Memory} {a : Nat} {w : Width} {v : Word} :
    m.read a w = some v ↔ a + w.bytes ≤ m.size ∧ v = BitVec.ofNat 32 (leNat (m.bytesAt a w.bytes)) := by
  unfold Memory.read
  split
  · next h => simp [Memory.inBounds_iff.mp h, eq_comm]
  · next h => simp [mt Memory.inBounds_iff.mpr h]

theorem Memory.read_eq_none {m : Memory} {a : Nat} {w : Width} : m.read a w = none ↔ m.size < a + w.bytes := by
  unfold Memory.read
  split
  · next h => simpa using Memory.inBounds_iff.mp h
  · next h => simpa using mt Memory.inBounds_iff.mpr h

theorem State.reset_data_wf : State.reset.data.wf = true :=
  Memory.zero_wf (by decide)

theorem State.reset_prog_wf : State.reset.prog.wf = true :=
  Memory.zero_wf (by decide)

end Sys2Proof.Machine
end

