-- ==== Sys2Proof/Laws/State.lean ====
section
/-! SUPPORT. Every field after every update of the state, and every cell after a write of a register, so that no later proof unfolds a record update. -/

namespace Sys2Proof.Machine

/-! ### The register file. -/

@[simp] theorem RegFile.set_r0 (f : RegFile) (r : Reg) (v : Word) :
    (f.set r v).r0 = if r = .r0 then v else f.r0 := by
  cases r <;> rfl

@[simp] theorem RegFile.set_r1 (f : RegFile) (r : Reg) (v : Word) :
    (f.set r v).r1 = if r = .r1 then v else f.r1 := by
  cases r <;> rfl

@[simp] theorem RegFile.set_r2 (f : RegFile) (r : Reg) (v : Word) :
    (f.set r v).r2 = if r = .r2 then v else f.r2 := by
  cases r <;> rfl

@[simp] theorem RegFile.set_r3 (f : RegFile) (r : Reg) (v : Word) :
    (f.set r v).r3 = if r = .r3 then v else f.r3 := by
  cases r <;> rfl

@[simp] theorem RegFile.set_ip (f : RegFile) (r : Reg) (v : Word) :
    (f.set r v).ip = if r = .ip then v else f.ip := by
  cases r <;> rfl

/-- A write of one register is read back, and every other register stays (R21). -/
@[simp] theorem RegFile.get_set (f : RegFile) (r q : Reg) (v : Word) :
    (f.set r v).get q = if r = q then v else f.get q := by
  cases r <;> cases q <;> rfl


/-! ### enterRunning. -/

@[simp] theorem State.enterRunning_params (s : State) : s.enterRunning.params = s.params := rfl
@[simp] theorem State.enterRunning_regs (s : State) : s.enterRunning.regs = s.regs := rfl
@[simp] theorem State.enterRunning_data (s : State) : s.enterRunning.data = s.data := rfl
@[simp] theorem State.enterRunning_prog (s : State) : s.enterRunning.prog = s.prog := rfl
@[simp] theorem State.enterRunning_aliased (s : State) : s.enterRunning.aliased = s.aliased := rfl
@[simp] theorem State.enterRunning_runState (s : State) : s.enterRunning.runState = .running := rfl
@[simp] theorem State.enterRunning_status (s : State) : s.enterRunning.status = s.status := rfl
@[simp] theorem State.enterRunning_pending (s : State) : s.enterRunning.pending = s.pending := rfl
@[simp] theorem State.enterRunning_reply (s : State) : s.enterRunning.reply = s.reply := rfl
@[simp] theorem State.enterRunning_draws (s : State) : s.enterRunning.draws = s.draws := rfl

/-! ### setData. -/

@[simp] theorem State.setData_params (s : State) (m : Memory) : (s.setData m).params = s.params := rfl
@[simp] theorem State.setData_regs (s : State) (m : Memory) : (s.setData m).regs = s.regs := rfl
@[simp] theorem State.setData_data (s : State) (m : Memory) : (s.setData m).data = m := rfl
@[simp] theorem State.setData_prog (s : State) (m : Memory) : (s.setData m).prog = s.prog := rfl
@[simp] theorem State.setData_aliased (s : State) (m : Memory) : (s.setData m).aliased = s.aliased := rfl
@[simp] theorem State.setData_runState (s : State) (m : Memory) : (s.setData m).runState = s.runState := rfl
@[simp] theorem State.setData_status (s : State) (m : Memory) : (s.setData m).status = s.status := rfl
@[simp] theorem State.setData_pending (s : State) (m : Memory) : (s.setData m).pending = s.pending := rfl
@[simp] theorem State.setData_reply (s : State) (m : Memory) : (s.setData m).reply = s.reply := rfl
@[simp] theorem State.setData_draws (s : State) (m : Memory) : (s.setData m).draws = s.draws := rfl

/-! ### setReg. -/

@[simp] theorem State.setReg_params (s : State) (r : Reg) (v : Word) : (s.setReg r v).params = s.params := rfl
@[simp] theorem State.setReg_regs (s : State) (r : Reg) (v : Word) : (s.setReg r v).regs = s.regs.set r v := rfl
@[simp] theorem State.setReg_data (s : State) (r : Reg) (v : Word) : (s.setReg r v).data = s.data := rfl
@[simp] theorem State.setReg_prog (s : State) (r : Reg) (v : Word) : (s.setReg r v).prog = s.prog := rfl
@[simp] theorem State.setReg_aliased (s : State) (r : Reg) (v : Word) : (s.setReg r v).aliased = s.aliased := rfl
@[simp] theorem State.setReg_runState (s : State) (r : Reg) (v : Word) : (s.setReg r v).runState = s.runState := rfl
@[simp] theorem State.setReg_status (s : State) (r : Reg) (v : Word) : (s.setReg r v).status = s.status := rfl
@[simp] theorem State.setReg_pending (s : State) (r : Reg) (v : Word) : (s.setReg r v).pending = s.pending := rfl
@[simp] theorem State.setReg_reply (s : State) (r : Reg) (v : Word) : (s.setReg r v).reply = s.reply := rfl
@[simp] theorem State.setReg_draws (s : State) (r : Reg) (v : Word) : (s.setReg r v).draws = s.draws := rfl

/-! ### advance. -/

@[simp] theorem State.advance_params (s : State) (k : Nat) : (s.advance k).params = s.params := rfl
@[simp] theorem State.advance_regs (s : State) (k : Nat) : (s.advance k).regs = { s.regs with ip := s.regs.ip + BitVec.ofNat 32 k } := rfl
@[simp] theorem State.advance_data (s : State) (k : Nat) : (s.advance k).data = s.data := rfl
@[simp] theorem State.advance_prog (s : State) (k : Nat) : (s.advance k).prog = s.prog := rfl
@[simp] theorem State.advance_aliased (s : State) (k : Nat) : (s.advance k).aliased = s.aliased := rfl
@[simp] theorem State.advance_runState (s : State) (k : Nat) : (s.advance k).runState = s.runState := rfl
@[simp] theorem State.advance_status (s : State) (k : Nat) : (s.advance k).status = s.status := rfl
@[simp] theorem State.advance_pending (s : State) (k : Nat) : (s.advance k).pending = s.pending := rfl
@[simp] theorem State.advance_reply (s : State) (k : Nat) : (s.advance k).reply = s.reply := rfl
@[simp] theorem State.advance_draws (s : State) (k : Nat) : (s.advance k).draws = s.draws := rfl

/-! ### raise. -/

@[simp] theorem State.raise_params (s : State) (e : FatalError) : (s.raise e).params = s.params := rfl
@[simp] theorem State.raise_regs (s : State) (e : FatalError) : (s.raise e).regs = { s.regs with ip := Config.ipAfterFault s.draws } := rfl
@[simp] theorem State.raise_data (s : State) (e : FatalError) : (s.raise e).data = s.data := rfl
@[simp] theorem State.raise_prog (s : State) (e : FatalError) : (s.raise e).prog = s.prog := rfl
@[simp] theorem State.raise_aliased (s : State) (e : FatalError) : (s.raise e).aliased = s.aliased := rfl
@[simp] theorem State.raise_runState (s : State) (e : FatalError) : (s.raise e).runState = .halted := rfl
@[simp] theorem State.raise_status (s : State) (e : FatalError) : (s.raise e).status = s.status.record e s.regs.ip := rfl
@[simp] theorem State.raise_pending (s : State) (e : FatalError) : (s.raise e).pending = s.pending := rfl
@[simp] theorem State.raise_reply (s : State) (e : FatalError) : (s.raise e).reply = some (.runFault e s.regs.ip) := rfl
@[simp] theorem State.raise_draws (s : State) (e : FatalError) : (s.raise e).draws = s.draws + 1 := rfl

/-! ### halt. -/

@[simp] theorem State.halt_params (s : State) (v : Word) : (s.halt v).params = s.params := rfl
@[simp] theorem State.halt_regs (s : State) (v : Word) : (s.halt v).regs = s.regs := rfl
@[simp] theorem State.halt_data (s : State) (v : Word) : (s.halt v).data = s.data := rfl
@[simp] theorem State.halt_prog (s : State) (v : Word) : (s.halt v).prog = s.prog := rfl
@[simp] theorem State.halt_aliased (s : State) (v : Word) : (s.halt v).aliased = s.aliased := rfl
@[simp] theorem State.halt_runState (s : State) (v : Word) : (s.halt v).runState = .halted := rfl
@[simp] theorem State.halt_status (s : State) (v : Word) : (s.halt v).status = { s.status with cause := .ret, result := v } := rfl
@[simp] theorem State.halt_pending (s : State) (v : Word) : (s.halt v).pending = s.pending := rfl
@[simp] theorem State.halt_reply (s : State) (v : Word) : (s.halt v).reply = some (.runResult v) := rfl
@[simp] theorem State.halt_draws (s : State) (v : Word) : (s.halt v).draws = s.draws := rfl

/-! ### answer. -/

@[simp] theorem State.answer_params (s : State) (r : HostReply) : (s.answer r).params = s.params := rfl
@[simp] theorem State.answer_regs (s : State) (r : HostReply) : (s.answer r).regs = s.regs := rfl
@[simp] theorem State.answer_data (s : State) (r : HostReply) : (s.answer r).data = s.data := rfl
@[simp] theorem State.answer_prog (s : State) (r : HostReply) : (s.answer r).prog = s.prog := rfl
@[simp] theorem State.answer_aliased (s : State) (r : HostReply) : (s.answer r).aliased = s.aliased := rfl
@[simp] theorem State.answer_runState (s : State) (r : HostReply) : (s.answer r).runState = s.runState := rfl
@[simp] theorem State.answer_status (s : State) (r : HostReply) : (s.answer r).status = s.status := rfl
@[simp] theorem State.answer_pending (s : State) (r : HostReply) : (s.answer r).pending = s.pending := rfl
@[simp] theorem State.answer_reply (s : State) (r : HostReply) : (s.answer r).reply = some r := rfl
@[simp] theorem State.answer_draws (s : State) (r : HostReply) : (s.answer r).draws = s.draws := rfl

/-! ### startRun. -/

@[simp] theorem State.startRun_params (s : State) (al : Bool) (st : Word) : (s.startRun al st).params = s.params := rfl
@[simp] theorem State.startRun_regs (s : State) (al : Bool) (st : Word) : (s.startRun al st).regs = { s.regs with ip := st } := rfl
@[simp] theorem State.startRun_data (s : State) (al : Bool) (st : Word) : (s.startRun al st).data = s.data := rfl
@[simp] theorem State.startRun_prog (s : State) (al : Bool) (st : Word) : (s.startRun al st).prog = s.prog := rfl
@[simp] theorem State.startRun_aliased (s : State) (al : Bool) (st : Word) : (s.startRun al st).aliased = al := rfl
@[simp] theorem State.startRun_runState (s : State) (al : Bool) (st : Word) : (s.startRun al st).runState = .ready := rfl
@[simp] theorem State.startRun_status (s : State) (al : Bool) (st : Word) : (s.startRun al st).status = s.status := rfl
@[simp] theorem State.startRun_pending (s : State) (al : Bool) (st : Word) : (s.startRun al st).pending = s.pending := rfl
@[simp] theorem State.startRun_reply (s : State) (al : Bool) (st : Word) : (s.startRun al st).reply = none := rfl
@[simp] theorem State.startRun_draws (s : State) (al : Bool) (st : Word) : (s.startRun al st).draws = s.draws := rfl

/-! ### setHostMem. -/

@[simp] theorem State.setHostMem_params (s : State) (sp : Space) (m : Memory) : (s.setHostMem sp m).params = s.params := by
  cases sp <;> rfl
@[simp] theorem State.setHostMem_regs (s : State) (sp : Space) (m : Memory) : (s.setHostMem sp m).regs = s.regs := by
  cases sp <;> rfl
@[simp] theorem State.setHostMem_aliased (s : State) (sp : Space) (m : Memory) : (s.setHostMem sp m).aliased = s.aliased := by
  cases sp <;> rfl
@[simp] theorem State.setHostMem_runState (s : State) (sp : Space) (m : Memory) : (s.setHostMem sp m).runState = s.runState := by
  cases sp <;> rfl
@[simp] theorem State.setHostMem_status (s : State) (sp : Space) (m : Memory) : (s.setHostMem sp m).status = s.status := by
  cases sp <;> rfl
@[simp] theorem State.setHostMem_pending (s : State) (sp : Space) (m : Memory) : (s.setHostMem sp m).pending = s.pending := by
  cases sp <;> rfl
@[simp] theorem State.setHostMem_reply (s : State) (sp : Space) (m : Memory) : (s.setHostMem sp m).reply = s.reply := by
  cases sp <;> rfl
@[simp] theorem State.setHostMem_draws (s : State) (sp : Space) (m : Memory) : (s.setHostMem sp m).draws = s.draws := by
  cases sp <;> rfl

/-- A host write of one memory is read back, and the other memory stays. -/
@[simp] theorem State.hostMem_setHostMem (s : State) (sp q : Space) (m : Memory) :
    (s.setHostMem sp m).hostMem q = if sp = q then m else s.hostMem q := by
  cases sp <;> cases q <;> rfl

end Sys2Proof.Machine
end

