-- ==== Sys2Proof/Laws/Machine.lean ====
section
/-! SUPPORT. What each shared operation of the machine can do, said once: the meanings, one step of the sequencer, the host's turn. -/

namespace Sys2Proof.Machine

/-! ### The three meanings. -/

@[simp] theorem storeAddress_eq (addr : Word) : storeAddress addr = addr.toNat := rfl

theorem execMovLitReg_eq (lit : Word) (r : Reg) (s : State) :
    execMovLitReg lit r s = .next ((s.advance 6).setReg r lit) := rfl

theorem execStoreLitMem_inBounds {lit addr : Word} {s : State} (h : addr.toNat + 4 ≤ s.data.size) :
    execStoreLitMem lit addr s = .next ((s.advance 9).setData (s.data.setBytes addr.toNat (leBytes 4 lit.toNat))) := by
  rw [execStoreLitMem, storeAddress, Memory.write_eq_some.mpr ⟨h, rfl⟩]
  rfl

theorem execStoreLitMem_outOfBounds {lit addr : Word} {s : State} (h : s.data.size < addr.toNat + 4) :
    execStoreLitMem lit addr s = .next (s.raise (.outOfBounds .data addr .w4)) := by
  rw [execStoreLitMem, storeAddress, Memory.write_eq_none.mpr h]

theorem execRet_eq (s : State) : execRet s = .next ((s.advance 1).halt s.regs.r0) := rfl

/-- Everything an instruction can do from its own address. -/
theorem exec_cases (i : Instr) (s : State) :
    (∃ lit r, i = .movLitReg lit r ∧ exec i s = .next ((s.advance 6).setReg r lit)) ∨
    (∃ lit addr, i = .storeLitMem lit addr ∧ addr.toNat + 4 ≤ s.data.size ∧
      exec i s = .next ((s.advance 9).setData (s.data.setBytes addr.toNat (leBytes 4 lit.toNat)))) ∨
    (∃ lit addr, i = .storeLitMem lit addr ∧ s.data.size < addr.toNat + 4 ∧
      exec i s = .next (s.raise (.outOfBounds .data addr .w4))) ∨
    (i = .ret ∧ exec i s = .next ((s.advance 1).halt s.regs.r0)) := by
  cases i with
  | movLitReg lit r => exact .inl ⟨lit, r, rfl, rfl⟩
  | storeLitMem lit addr =>
    rcases Nat.lt_or_ge s.data.size (addr.toNat + 4) with h | h
    · exact .inr (.inr (.inl ⟨lit, addr, rfl, h, execStoreLitMem_outOfBounds h⟩))
    · exact .inr (.inl ⟨lit, addr, rfl, h, execStoreLitMem_inBounds h⟩)
  | ret => exact .inr (.inr (.inr ⟨rfl, rfl⟩))

/-! ### One step of the sequencer. -/

/-- Everything a step of the sequencer can do: run the decoded instruction, or raise a fatal error. -/
theorem stepRun_cases (s : State) :
    (∃ i nextAddr, s.fetchInstr = .ok i nextAddr ∧ stepRun s = exec i s.enterRunning) ∨
    (∃ e, stepRun s = .next (s.enterRunning.raise e)) := by
  unfold stepRun
  split
  · next i nextAddr h => exact .inl ⟨i, nextAddr, h, rfl⟩
  · exact .inr ⟨_, rfl⟩
  · exact .inr ⟨_, rfl⟩
  · exact .inr ⟨_, rfl⟩

/-- During a run the step is the sequencer's. -/
theorem step_running {s : State} (h : s.runState = .ready ∨ s.runState = .running) : step s = stepRun s := by
  unfold step
  rcases h with h | h <;> rw [h]

/-- Between runs the step is the host's. -/
theorem step_between {s : State} (h : s.runState = .idle ∨ s.runState = .halted) : step s = hostTurn s := by
  unfold step
  rcases h with h | h <;> rw [h]

/-- Setting RUN_STATE changes nothing of what is fetched. -/
theorem State.fetchInstr_enterRunning (s : State) : s.enterRunning.fetchInstr = s.fetchInstr := rfl

/-! ### The host's turn. -/

/-- A next state of the host's turn comes from its oldest transaction. -/
theorem hostTurn_next {s t : State} (h : hostTurn s = .next t) :
    ∃ op ops, s.pending = op :: ops ∧ hostExec op { s with pending := ops } = .next t := by
  unfold hostTurn at h
  split at h
  · cases h
  · next op ops hp => exact ⟨op, ops, hp, h⟩

/-! ### Runs of many steps. -/

/-- A run of k + 1 steps begins with one step. -/
theorem run_succ (M : Host.Core) (k : Nat) {s t : M.State} (h : M.step s = .next t) : M.run (k + 1) s = M.run k t := by
  rw [Host.Core.run, h]

/-- The same of the block. -/
theorem core_run_succ (k : Nat) {s t : State} (h : step s = .next t) :
    Host.Core.run Sys2Proof.core (k + 1) s = Host.Core.run Sys2Proof.core k t :=
  run_succ Sys2Proof.core k h

end Sys2Proof.Machine
end

