-- ==== Sys2Proof/Laws/Fetch.lean ====
section
/-! SUPPORT. What the sequencer fetches at IP, said once, in terms of the program memory's size and its bytes. -/

namespace Sys2Proof.Machine

theorem Memory.bytesAt_take (m : Memory) {k n : Nat} (a : Nat) (h : k ≤ n) : (m.bytesAt a n).take k = m.bytesAt a k := by
  induction k generalizing n a with
  | zero => rfl
  | succ k ih =>
    obtain ⟨n, rfl⟩ := Nat.exists_eq_succ_of_ne_zero (show n ≠ 0 by omega)
    rw [Memory.bytesAt, List.take_succ_cons, ih (a + 1) (by omega), ← Memory.bytesAt]

theorem Memory.bytesAt_drop (m : Memory) (k n a : Nat) : (m.bytesAt a n).drop k = m.bytesAt (a + k) (n - k) := by
  induction k generalizing n a with
  | zero => rfl
  | succ k ih =>
    cases n with
    | zero => simp [Memory.bytesAt]
    | succ n => rw [Memory.bytesAt, List.drop_succ_cons, ih, Nat.add_sub_add_right, Nat.add_right_comm, Nat.add_assoc]

theorem Memory.word_eq (m : Memory) (a : Nat) : BitVec.ofNat 32 (leNat (m.bytesAt a 4)) = m.word a := by
  apply BitVec.eq_of_toNat_eq
  have h0 := (m.byte a).isLt
  have h1 := (m.byte (a + 1)).isLt
  have h2 := (m.byte (a + 2)).isLt
  have h3 := (m.byte (a + 3)).isLt
  simp only [Memory.bytesAt, leNat, BitVec.toNat_ofNat, Memory.word, BitVec.toNat_append, Nat.add_assoc]
  rw [← Nat.shiftLeft_add_eq_or_of_lt h0, ← Nat.shiftLeft_add_eq_or_of_lt h1, ← Nat.shiftLeft_add_eq_or_of_lt h2]
  simp only [Nat.shiftLeft_eq]
  norm_num
  omega

/-- MemRead of one byte. -/
theorem Memory.read_w1 (m : Memory) (a : Nat) :
    m.read a .w1 = if m.size < a + 1 then none else some ((m.byte a).setWidth 32) := by
  split
  · next h => exact Memory.read_eq_none.mpr h
  · next h =>
    refine Memory.read_eq_some.mpr ⟨Nat.not_lt.mp h, BitVec.eq_of_toNat_eq ?_⟩
    simp [Width.bytes, Memory.bytesAt, leNat]

/-- MemRead of four bytes. -/
theorem Memory.read_w4 (m : Memory) (a : Nat) : m.read a .w4 = if m.size < a + 4 then none else some (m.word a) := by
  split
  · next h => exact Memory.read_eq_none.mpr h
  · next h => exact Memory.read_eq_some.mpr ⟨Nat.not_lt.mp h, (Memory.word_eq m a).symm⟩

/-! ### A field read from the instruction stream. -/

/-- Below 2^32 a field is read at its own address, in every block. -/
theorem State.fieldAddress_of_lt {s : State} {a : Nat} (h : a < 2 ^ 32) : s.fieldAddress a = a := by
  unfold State.fieldAddress
  split
  · exact Nat.mod_eq_of_lt h
  · rfl

@[simp] theorem State.fieldAddress_ip (s : State) : s.fieldAddress s.regs.ip.toNat = s.regs.ip.toNat :=
  State.fieldAddress_of_lt s.regs.ip.isLt

theorem State.fieldAddress_of_not_wrap {s : State} (h : s.params.fieldsWrap = false) (a : Nat) : s.fieldAddress a = a := by
  rw [State.fieldAddress, h]
  rfl

/-- Where fields wrap, the field k bytes on is read at IP + k. -/
theorem State.fieldAddress_of_wrap {s : State} (h : s.params.fieldsWrap = true) (k : Nat) :
    s.fieldAddress (s.regs.ip.toNat + k) = (s.regs.ip + BitVec.ofNat 32 k).toNat := by
  rw [State.fieldAddress, h, BitVec.toNat_add, BitVec.toNat_ofNat, Nat.add_mod_mod]
  rfl

/-- The address recorded for the field k bytes on is IP + k. -/
theorem State.ofNat_ip_add (s : State) (k : Nat) : BitVec.ofNat 32 (s.regs.ip.toNat + k) = s.regs.ip + BitVec.ofNat 32 k := by
  simp [BitVec.ofNat_add]

theorem State.fetchField_w1 (s : State) (a : Nat) : s.fetchField .w1 a =
    if s.progMem.size < s.fieldAddress a + 1 then none else some ((s.progMem.byte (s.fieldAddress a)).setWidth 32, a + 1) := by
  rw [State.fetchField, Memory.read_w1]
  split <;> rfl

theorem State.fetchField_w4 (s : State) (a : Nat) : s.fetchField .w4 a =
    if s.progMem.size < s.fieldAddress a + 4 then none else some (s.progMem.word (s.fieldAddress a), a + 4) := by
  rw [State.fetchField, Memory.read_w4]
  split <;> rfl

/-- What the sequencer fetches when the fields are read at `f 1` and `f 5`. -/
def State.fetchAt (s : State) (f : Nat → Nat) : DecodeResult Nat :=
  if s.progMem.size < s.regs.ip.toNat + 1 then .outOfBounds s.regs.ip.toNat .w1
  else match dispatch s.params (s.progMem.byte s.regs.ip.toNat) with
    | none => .illegalInstruction (s.progMem.byte s.regs.ip.toNat)
    | some .movLitReg =>
      if s.progMem.size < f 1 + 4 then .outOfBounds (s.regs.ip.toNat + 1) .w4
      else if s.progMem.size < f 5 + 1 then .outOfBounds (s.regs.ip.toNat + 5) .w1
      else match decodeReg s.params (s.progMem.byte (f 5)) with
        | none => .invalidRegister (s.progMem.byte (f 5))
        | some r => .ok (.movLitReg (s.progMem.word (f 1)) r) (s.regs.ip.toNat + 6)
    | some .storeLitMem =>
      if s.progMem.size < f 1 + 4 then .outOfBounds (s.regs.ip.toNat + 1) .w4
      else if s.progMem.size < f 5 + 4 then .outOfBounds (s.regs.ip.toNat + 5) .w4
      else .ok (.storeLitMem (s.progMem.word (f 1)) (s.progMem.word (f 5))) (s.regs.ip.toNat + 9)
    | some .ret => .ok .ret (s.regs.ip.toNat + 1)

/-- What the sequencer fetches at IP, in terms of the program memory. -/
theorem State.fetchInstr_eq (s : State) : s.fetchInstr = s.fetchAt fun k => s.fieldAddress (s.regs.ip.toNat + k) := by
  have narrow : ∀ b : Byte, (b.setWidth 32).setWidth 8 = b := fun b => by simp
  unfold State.fetchInstr State.fetchAt decodeFrom
  rw [State.fetchField_w1, State.fieldAddress_ip]
  by_cases c1 : s.progMem.size < s.regs.ip.toNat + 1
  · simp only [if_pos c1]
  simp only [if_neg c1, narrow]
  cases dispatch s.params (s.progMem.byte s.regs.ip.toNat) with
  | none => rfl
  | some op =>
    cases op with
    | movLitReg =>
      simp only [Op.fields, readFields, FieldRole.width, State.fetchField_w4]
      by_cases c5 : s.progMem.size < s.fieldAddress (s.regs.ip.toNat + 1) + 4
      · simp only [if_pos c5]
      simp only [if_neg c5, Nat.add_assoc, Nat.reduceAdd, State.fetchField_w1]
      by_cases c6 : s.progMem.size < s.fieldAddress (s.regs.ip.toNat + 5) + 1
      · simp only [if_pos c6]
      simp only [if_neg c6, Operands.set, Op.assemble, narrow]
      cases decodeReg s.params (s.progMem.byte (s.fieldAddress (s.regs.ip.toNat + 5))) <;> rfl
    | storeLitMem =>
      simp only [Op.fields, readFields, FieldRole.width, State.fetchField_w4]
      by_cases c5 : s.progMem.size < s.fieldAddress (s.regs.ip.toNat + 1) + 4
      · simp only [if_pos c5]
      simp only [if_neg c5, Nat.add_assoc, Nat.reduceAdd]
      by_cases c9 : s.progMem.size < s.fieldAddress (s.regs.ip.toNat + 5) + 4
      · simp only [if_pos c9]
      simp only [if_neg c9, Operands.set, Op.assemble]
    | ret => rfl

/-- Two ways to address the fields fetch the same where they agree on every field that is reached. -/
theorem State.fetchAt_congr {s : State} {f g : Nat → Nat}
    (h : ∀ k, k < 9 → s.regs.ip.toNat + k ≤ s.progMem.size → f k = g k)
    (h1 : s.progMem.size < g 1 + 4 ∨ s.regs.ip.toNat + 5 ≤ s.progMem.size) : s.fetchAt f = s.fetchAt g := by
  unfold State.fetchAt
  by_cases c1 : s.progMem.size < s.regs.ip.toNat + 1
  · rw [if_pos c1, if_pos c1]
  rw [if_neg c1, if_neg c1, h 1 (by omega) (by omega)]
  by_cases c5 : s.progMem.size < g 1 + 4
  · simp only [if_pos c5]
  simp only [if_neg c5, h 5 (by omega) (by omega)]

/-- Where the fields stand at the sums of R155, the fetch is at them. -/
theorem State.fetchInstr_of_fieldsAtSums {s : State} (h : s.fieldsAtSums) :
    s.fetchInstr = s.fetchAt fun k => s.regs.ip.toNat + k := by
  rw [State.fetchInstr_eq]
  rcases h with h | h
  · simp only [State.fieldAddress_of_not_wrap h]
  · refine State.fetchAt_congr (fun k hk hs => State.fieldAddress_of_lt ?_) (by omega)
    unfold State.fieldsBelowTop maxInstrBytes at h
    omega

/-- Where the fields stand at the IP of R103, the fetch is at it. -/
theorem State.fetchInstr_of_fieldsAtIp {s : State} (h : s.fieldsAtIp) :
    s.fetchInstr = s.fetchAt fun k => (s.regs.ip + BitVec.ofNat 32 k).toNat := by
  rcases h with h | h
  · rw [State.fetchInstr_eq]
    simp only [State.fieldAddress_of_wrap h]
  · rw [State.fetchInstr_of_fieldsAtSums (.inr h)]
    symm
    refine State.fetchAt_congr (fun k hk hs => ?_) (by omega)
    unfold State.fieldsBelowTop maxInstrBytes at h
    rw [BitVec.toNat_add, BitVec.toNat_ofNat]
    omega

/-! ### The bytes at IP. -/

/-- A field that a byte string holds is the field the sequencer reads where those bytes stand in program memory. -/
theorem State.fetchField_of_bytes {s : State} {a n : Nat} {w : Width} (hs : s.progMem.size ≤ 2 ^ 32) (h : a + n ≤ s.progMem.size)
    (hw : w.bytes ≤ n) : s.fetchField w a =
      some (BitVec.ofNat 32 (leNat ((s.progMem.bytesAt a n).take w.bytes)), a + w.bytes) := by
  have hpos : 0 < w.bytes := by cases w <;> decide
  rw [State.fetchField, State.fieldAddress_of_lt (by omega), Memory.read_eq_some.mpr ⟨by omega, rfl⟩, Memory.bytesAt_take _ _ hw,
    Option.map_some]

/-- The same of a sequence of fields. -/
theorem State.readFields_of_bytes {s : State} (hs : s.progMem.size ≤ 2 ^ 32) {fs : List FieldRole} {o o' : Operands} {a n : Nat}
    {rest : List Byte} (h : a + n ≤ s.progMem.size) (hd : readFields takeField fs o (s.progMem.bytesAt a n) = .ok o' rest) :
    readFields s.fetchField fs o a = .ok o' (a + fieldBytes fs) := by
  induction fs generalizing o a n with
  | nil =>
    cases hd
    rfl
  | cons f fs ih =>
    simp only [readFields, takeField, Memory.bytesAt_length] at hd ⊢
    by_cases hw : f.width.bytes ≤ n
    · simp only [if_pos hw, Memory.bytesAt_drop] at hd
      rw [State.fetchField_of_bytes hs h hw]
      simp only
      rw [ih (by omega) hd, fieldBytes, Nat.add_assoc]
    · simp [if_neg hw] at hd

/-- An assembled instruction does not depend on where its source stands. -/
theorem assemble_ok {σ τ : Type} {p : Params} {op : Op} {o : Operands} {rest : σ} {i : Instr} {r : σ}
    (h : op.assemble p o rest = .ok i r) (rest' : τ) : op.assemble p o rest' = .ok i rest' ∧ i.op = op := by
  cases op with
  | movLitReg =>
    simp only [Op.assemble] at h ⊢
    split at h
    · cases h; exact ⟨rfl, rfl⟩
    · cases h
  | storeLitMem => cases h; exact ⟨rfl, rfl⟩
  | ret => cases h; exact ⟨rfl, rfl⟩

/-- The instruction that a byte string decodes to is the one the sequencer fetches where those bytes stand at IP. -/
theorem State.fetchInstr_of_decode {s : State} {n : Nat} {i : Instr} {rest : List Byte} (hs : s.progMem.size ≤ 2 ^ 32)
    (h : s.regs.ip.toNat + n ≤ s.progMem.size) (hd : decode s.params (s.progMem.bytesAt s.regs.ip.toNat n) = .ok i rest) :
    s.fetchInstr = .ok i (s.regs.ip.toNat + i.length) := by
  cases n with
  | zero => cases hd
  | succ n =>
    rw [Memory.bytesAt, decode_cons] at hd
    have narrow : ∀ b : Byte, (b.setWidth 32).setWidth 8 = b := fun b => by simp
    unfold State.fetchInstr decodeFrom
    rw [State.fetchField_w1, State.fieldAddress_ip, if_neg (by omega)]
    simp only [narrow]
    cases hop : dispatch s.params (s.progMem.byte s.regs.ip.toNat) with
    | none => simp [hop] at hd
    | some op =>
      simp only [hop] at hd ⊢
      cases hf : readFields takeField op.fields {} (s.progMem.bytesAt (s.regs.ip.toNat + 1) n) with
      | short src w => simp only [hf, reduceCtorEq] at hd
      | ok o rest' =>
        simp only [hf] at hd
        rw [State.readFields_of_bytes hs (by omega) hf]
        obtain ⟨ha, ho⟩ := assemble_ok hd (s.regs.ip.toNat + 1 + fieldBytes op.fields)
        rw [Instr.length, Op.length, ho, ← Nat.add_assoc]
        exact ha

/-- The address the fetch ends at is the instruction's length on (R104). -/
theorem State.fetchInstr_next {s : State} {i : Instr} {nextAddr : Nat} (h : s.fetchInstr = .ok i nextAddr) :
    nextAddr = s.regs.ip.toNat + i.length := by
  rw [State.fetchInstr_eq, State.fetchAt] at h
  split at h
  · cases h
  split at h
  · cases h
  · split at h
    · cases h
    split at h
    · cases h
    split at h
    · cases h
    cases h; rfl
  · split at h
    · cases h
    split at h
    · cases h
    cases h; rfl
  · cases h; rfl

end Sys2Proof.Machine
end

