-- ==== Sys2Proof/Laws/PerInstr.lean ====
section
/-! SUPPORT. Facts said for every instruction, one lemma per constructor. -/

namespace Sys2Proof.Laws.EncodedLength

/-- The encoder's bytes are as many as the dispatch table's length of the instruction (R71, R73). -/
def Statement (i : Instr) : Prop :=
  ∀ p bs, encode p i = some bs → bs.length = i.length

theorem movLitReg (lit : Word) (reg : Reg) : Statement (.movLitReg lit reg) := by
  intro p bs h
  simp only [encode, Option.map_eq_some_iff] at h
  obtain ⟨b, -, rfl⟩ := h
  simp [Instr.length, Instr.op, Op.length, Op.fields, fieldBytes, FieldRole.width, Width.bytes]

theorem storeLitMem (lit addr : Word) : Statement (.storeLitMem lit addr) := by
  intro p bs h
  simp only [encode, Option.some.injEq] at h
  subst h
  simp [Instr.length, Instr.op, Op.length, Op.fields, fieldBytes, FieldRole.width, Width.bytes]

theorem ret : Statement .ret := by
  intro p bs h
  simp only [encode, Option.some.injEq] at h
  subst h
  rfl

end Sys2Proof.Laws.EncodedLength
end

