-- ==== Sys2Proof/Laws/Step.lean ====
section
/-! SUPPORT. Inversion: everything a step of a run, and a transaction of the host, can do when it answers a next state. -/

namespace Sys2Proof.Machine

/-! ### What a fatal error records. -/

@[simp] theorem HaltStatus.record_cause (h : HaltStatus) (e : FatalError) (a : Word) : (h.record e a).cause = .fault := by
  cases e <;> rfl

@[simp] theorem HaltStatus.record_faultIaddr (h : HaltStatus) (e : FatalError) (a : Word) : (h.record e a).faultIaddr = a := by
  cases e <;> rfl

@[simp] theorem HaltStatus.record_result (h : HaltStatus) (e : FatalError) (a : Word) : (h.record e a).result = h.result := by
  cases e <;> rfl

/-- The record can be read back: `HaltStatus.error` gives the error that was recorded. -/
@[simp] theorem HaltStatus.record_error (h : HaltStatus) (e : FatalError) (a : Word) : (h.record e a).error = some e := by
  cases e with
  | outOfBounds sp addr w =>
    cases sp <;> cases w <;>
      simp [HaltStatus.record, HaltStatus.error, FatalError.code, widthOfCode, widthCode, spaceCode]
  | illegalInstruction b => simp [HaltStatus.record, HaltStatus.error, FatalError.code]
  | invalidRegister b => simp [HaltStatus.record, HaltStatus.error, FatalError.code]

/-! ### A step of a run. -/

/-- Either the sequencer or the host moves. -/
theorem State.inRun_or_betweenRuns (s : State) : s.inRun ∨ s.betweenRuns := by
  unfold State.inRun State.betweenRuns
  cases s.runState <;> simp

/-- Everything a step of a run can lead to: the effect of the decoded instruction, or a raise. -/
theorem step_next_of_inRun {s t : State} (h : s.inRun) (ht : step s = .next t) :
    (∃ i nextAddr, s.fetchInstr = .ok i nextAddr ∧
      ((∃ lit r, i = .movLitReg lit r ∧ t = (s.enterRunning.advance 6).setReg r lit) ∨
       (∃ lit addr, i = .storeLitMem lit addr ∧ addr.toNat + 4 ≤ s.data.size ∧
          t = (s.enterRunning.advance 9).setData (s.data.setBytes addr.toNat (leBytes 4 lit.toNat))) ∨
       (i = .ret ∧ t = (s.enterRunning.advance 1).halt s.regs.r0))) ∨
    ∃ e, t = s.enterRunning.raise e := by
  rw [step_running h] at ht
  rcases stepRun_cases s with ⟨i, nextAddr, hd, he⟩ | ⟨e, he⟩
  · rw [he] at ht
    rcases exec_cases i s.enterRunning with ⟨l, r, hi, hx⟩ | ⟨l, a, hi, hb, hx⟩ | ⟨l, a, hi, hb, hx⟩ | ⟨hi, hx⟩ <;>
      rw [hx, Host.Outcome.next.injEq] at ht <;> subst ht
    · exact .inl ⟨i, nextAddr, hd, .inl ⟨l, r, hi, rfl⟩⟩
    · exact .inl ⟨i, nextAddr, hd, .inr (.inl ⟨l, a, hi, hb, rfl⟩)⟩
    · exact .inr ⟨_, rfl⟩
    · exact .inl ⟨i, nextAddr, hd, .inr (.inr ⟨hi, rfl⟩)⟩
  · rw [he, Host.Outcome.next.injEq] at ht
    exact .inr ⟨e, ht.symm⟩

/-! ### A transaction of the host. -/

/-- A step between runs is the oldest pending transaction, made on the state without it. -/
theorem step_next_of_betweenRuns {s t : State} (h : s.betweenRuns) (ht : step s = .next t) :
    ∃ op ops, s.pending = op :: ops ∧ hostExec op { s with pending := ops } = .next t := by
  rw [step_between h] at ht
  exact hostTurn_next ht

/-- What every transaction but construct leaves alone, and what it may touch. -/
theorem hostExec_frame {op : HostOp} {s t : State} (h : hostExec op s = .next t) (hc : ∀ size init, op ≠ .construct size init) :
    t.params = s.params ∧ t.status = s.status ∧ t.pending = s.pending ∧
      (t.runState = s.runState ∨ ∃ al st, op = .run al st ∧ t.runState = .ready) := by
  cases op with
  | construct size init => exact absurd rfl (hc size init)
  | run al st => cases h; exact ⟨rfl, rfl, rfl, .inr ⟨al, st, rfl, rfl⟩⟩
  | getReg r => cases h; exact ⟨rfl, rfl, rfl, .inl rfl⟩
  | setReg r v => cases h; exact ⟨rfl, rfl, rfl, .inl rfl⟩
  | write sp addr bytes length =>
    simp only [hostExec] at h
    split at h
    · split at h
      · cases h; simp
      · cases h
    · cases h; exact ⟨rfl, rfl, rfl, .inl rfl⟩
  | write8 sp addr v => simp only [hostExec, State.hostWrite] at h; split at h <;> cases h <;> simp
  | write32 sp addr v => simp only [hostExec, State.hostWrite] at h; split at h <;> cases h <;> simp
  | read8 sp addr => simp only [hostExec, State.hostRead] at h; split at h <;> cases h <;> simp
  | read32 sp addr => simp only [hostExec, State.hostRead] at h; split at h <;> cases h <;> simp
  | newProgram size =>
    simp only [hostExec] at h
    split at h
    · cases h; exact ⟨rfl, rfl, rfl, .inl rfl⟩
    · cases h
  | readStatus f => simp only [hostExec, State.readStatus] at h; split at h <;> cases h <;> exact ⟨rfl, rfl, rfl, .inl rfl⟩
  | inspectMemory sp => cases h; exact ⟨rfl, rfl, rfl, .inl rfl⟩
  | inspectRegisters => cases h; exact ⟨rfl, rfl, rfl, .inl rfl⟩

/-- What construct leads to (R176): a fresh block with the parameters of the old one. -/
theorem hostExec_construct {size : Nat} {init : RegFile} {s t : State} (h : hostExec (.construct size init) s = .next t) :
    size ≤ Config.maxMemSize ∧ t = (s.reconstruct size init).answer .done := by
  simp only [hostExec] at h
  split at h
  · next hs => cases h; exact ⟨hs, rfl⟩
  · cases h

/-- Every transaction keeps both memories in canonical form. -/
theorem hostExec_wf {op : HostOp} {s t : State} (hd : s.data.wf = true) (hp : s.prog.wf = true) (h : hostExec op s = .next t) :
    t.data.wf = true ∧ t.prog.wf = true := by
  have mem : ∀ sp, (s.hostMem sp).wf = true := fun sp => by cases sp; exacts [hp, hd]
  have set : ∀ sp m, m.wf = true → (s.setHostMem sp m).data.wf = true ∧ (s.setHostMem sp m).prog.wf = true := by
    intro sp m hm
    cases sp
    exacts [⟨hd, hm⟩, ⟨hm, hp⟩]
  cases op with
  | construct size init =>
    obtain ⟨hs, rfl⟩ := hostExec_construct h
    exact ⟨Memory.zero_wf hs, hp⟩
  | run al st => cases h; exact ⟨hd, hp⟩
  | getReg r => cases h; exact ⟨hd, hp⟩
  | setReg r v => cases h; exact ⟨hd, hp⟩
  | write sp addr bytes length =>
    simp only [hostExec] at h
    split at h
    · next hb =>
      split at h
      · cases h
        refine set sp _ (Memory.setBytes_wf _ (mem sp) ?_)
        have := Memory.inBounds_iff.mp hb
        rw [List.length_take]
        omega
      · cases h
    · cases h; exact ⟨hd, hp⟩
  | write8 sp addr v =>
    simp only [hostExec, State.hostWrite] at h
    split at h <;> cases h
    · next m hm => exact set sp m (Memory.write_wf (mem sp) hm)
    · exact ⟨hd, hp⟩
  | write32 sp addr v =>
    simp only [hostExec, State.hostWrite] at h
    split at h <;> cases h
    · next m hm => exact set sp m (Memory.write_wf (mem sp) hm)
    · exact ⟨hd, hp⟩
  | read8 sp addr => simp only [hostExec, State.hostRead] at h; split at h <;> cases h <;> exact ⟨hd, hp⟩
  | read32 sp addr => simp only [hostExec, State.hostRead] at h; split at h <;> cases h <;> exact ⟨hd, hp⟩
  | newProgram size =>
    simp only [hostExec] at h
    split at h
    · next hs => cases h; exact ⟨hd, Memory.zero_wf hs⟩
    · cases h
  | readStatus f => simp only [hostExec, State.readStatus] at h; split at h <;> cases h <;> exact ⟨hd, hp⟩
  | inspectMemory sp => cases h; exact ⟨hd, hp⟩
  | inspectRegisters => cases h; exact ⟨hd, hp⟩

end Sys2Proof.Machine
end

