-- ==== Sys2Proof/Tests/Slice0.lean ====
section
/-! SUPPORT. Tests of one step each, with expected values from `30_encoding.md` R83 and `95_test_vectors.md`, smoke tests of the well-formedness checks, and for every statement with hypotheses a witness that meets them. -/

namespace Sys2Proof.Tests

open Sys2Proof Sys2Proof.Machine

/-! ### Small states -/

/-- A memory that holds exactly these bytes from address 0. -/
def mem (bytes : List Byte) : Memory :=
  (Memory.zero bytes.length).setBytes 0 bytes

/-- A block about to run these program bytes from address 0, with the registers of vector V1 and a data memory of 0x2000 bytes. -/
def block (bytes : List Byte) : State :=
  { State.reset with prog := mem bytes, runState := .ready, regs := ⟨0xdead, 0xbeef, 0xaaaa, 0xbbbb, 0⟩ }

/-- The same block with IP nameable as register id 0x04 (section 2.7 of the vectors). -/
def blockIp (bytes : List Byte) : State :=
  { block bytes with params := { Params.default with regIdIp := some 0x04 } }

/-- A block between runs with one host transaction pending. -/
def hosted (op : HostOp) : State :=
  { State.reset with pending := [op] }

/-- Whether one step leads to a next state with this property. -/
def after (s : State) (p : State → Bool) : Bool :=
  match step s with
  | .next t => p t
  | .fault _ => false
  | .refused _ => false

def movBytes : List Byte := [0x01, 0x12, 0x12, 0x12, 0x12, 0x01]
def storeBytes : List Byte := [0x02, 0xFF, 0xFF, 0xFF, 0xFF, 0x34, 0x12, 0x00, 0x00]

/-! ### Well-formedness smoke tests: each check refuses an ill-formed term -/

theorem test_wf_refuses_ip_by_default : (Instr.movLitReg 0 .ip).wf Params.default = false := by decide
theorem test_wf_accepts_general_register : (Instr.movLitReg 0 .r3).wf Params.default = true := by decide
theorem test_wf_accepts_ip_when_nameable :
    (Instr.movLitReg 0 .ip).wf { Params.default with regIdIp := some 4 } = true := by decide
theorem test_params_wf_refuses_equal_opcodes : ¬ ({ Params.default with opcReturn := 0x01 } : Params).wf := by decide
theorem test_params_wf_refuses_equal_register_ids : ¬ ({ Params.default with regIdIp := some 0x03 } : Params).wf := by decide
theorem test_memory_wf_refuses_disorder : (⟨8, [(2, 1), (1, 1)]⟩ : Memory).wf = false := by decide
theorem test_memory_wf_refuses_repeat : (⟨8, [(2, 1), (2, 1)]⟩ : Memory).wf = false := by decide
theorem test_memory_wf_refuses_listed_zero : (⟨8, [(2, 0)]⟩ : Memory).wf = false := by decide
theorem test_memory_wf_refuses_outside : (⟨8, [(8, 1)]⟩ : Memory).wf = false := by decide
theorem test_memory_wf_refuses_oversize : (⟨2 ^ 32 + 1, []⟩ : Memory).wf = false := by decide

/-! ### Decoding: words written out from R74 and R83 -/

/-- R83, format LR: opcode 01, literal 12 12 12 12, register id 01. -/
theorem test_decode_mov_word : decodeTableWord 48 0x011212121201 = some (.movLitReg 0x12121212 .r1) := by decide
/-- R74: lit[7:0] stands at +1 and lit[31:24] at +4. -/
theorem test_decode_mov_literal_order :
    decode Params.default [0x01, 0x78, 0x56, 0x34, 0x12, 0x02, 0x03] = .ok (.movLitReg 0x12345678 .r2) [0x03] := by decide
/-- R83, format LA: opcode 02, literal FF FF FF FF, address 34 12 00 00. -/
theorem test_decode_store_word : decodeTableWord 72 0x00001234FFFFFFFF02 = some (.storeLitMem 0xffffffff 0x1234) := by decide
/-- Vector S6: the literal comes before the address. -/
theorem test_decode_store_field_order :
    decode Params.default [0x02, 0x44, 0x33, 0x22, 0x11, 0x33, 0x12, 0x00, 0x00] = .ok (.storeLitMem 0x11223344 0x1233) [] := by
  decide
/-- R83, format N. -/
theorem test_decode_return_word : decodeTableWord 8 0x03 = some .ret := by decide
/-- Vector E1. -/
theorem test_decode_illegal : decode Params.default [0xFF, 0x00] = .illegalInstruction 0xFF := by decide
/-- Vector E2. -/
theorem test_decode_invalid_register : decode Params.default [0x01, 0, 0, 0, 0, 0x04] = .invalidRegister 0x04 := by decide
/-- Vectors E4 to E7: the first field that is not all there. -/
theorem test_decode_short :
    decode Params.default [0x01, 0x12, 0x12, 0x12] = .outOfBounds [0x12, 0x12, 0x12] .w4 ∧
    decode Params.default [0x01, 0x12, 0x12, 0x12, 0x12] = .outOfBounds [] .w1 ∧
    decode Params.default [0x02, 0xFF, 0xFF, 0xFF, 0xFF, 0x34, 0x12] = .outOfBounds [0x34, 0x12] .w4 ∧
    decode Params.default [] = .outOfBounds [] .w1 := by decide

/-! ### The memory controller (vectors V5, M1 to M6) -/

theorem test_bounds_no_wrap :
    ((Memory.zero (2 ^ 32)).read 0xFFFFFFFC .w4).isSome = true ∧ ((Memory.zero (2 ^ 32)).read 0xFFFFFFFD .w4).isSome = false ∧
    ((Memory.zero 4).read 1 .w4).isSome = false ∧ ((Memory.zero 4).read 3 .w1).isSome = true := by decide
theorem test_write_little_endian :
    ((Memory.zero 0x2000).write 0x100 .w4 0x11223344).bind (·.read 0x101 .w2) = some 0x2233 ∧
    ((Memory.zero 0x2000).write 0x101 .w4 0xA1B2C3D4) = some ⟨0x2000, [(0x101, 0xD4), (0x102, 0xC3), (0x103, 0xB2), (0x104, 0xA1)]⟩ ∧
    ((Memory.zero 0x2000).write 0x1FFD .w4 1) = none := by decide
/-- Vector S7: writing the unlisted value removes the entries. -/
theorem test_write_zero_keeps_form :
    (⟨0x20, [(0x10, 0xAB), (0x11, 0xAB), (0x12, 0xAB), (0x13, 0xAB)]⟩ : Memory).write 0x10 .w4 0 = some ⟨0x20, []⟩ := by decide

/-- A block whose program memory has 2^32 bytes and lists these cells, about to run from an address near its top. -/
def fullBlock (cells : List Host.Cell) (ip : Word) : State :=
  { block [] with prog := ⟨2 ^ 32, cells⟩, regs := ⟨1, 0, 0, 0, ip⟩ }

/-- The state of a block whose fields stand at the IP the field before leaves, modulo 2^32 (log entry 7). -/
def atIp (s : State) : State :=
  { s with params := { s.params with fieldsWrap := true } }

/-- An opcode in the last byte: the literal is read at 0, the register id at 4, where fields wrap (R103 taken alone). -/
def opcodeAtTop : State := fullBlock [(0, 0x78), (1, 0x56), (2, 0x34), (3, 0x12), (4, 0x02), (0xFFFFFFFF, 0x01)] 0xFFFFFFFF
/-- A literal in the last four bytes: the address is read at 0, where fields wrap. -/
def literalAtTop : State := fullBlock [(0, 0x40), (0xFFFFFFFB, 0x02), (0xFFFFFFFC, 0xAA)] 0xFFFFFFFB

/-! ### One step of each instruction -/

/-- Vector V1, first step. -/
theorem test_mov_step : after (block (movBytes ++ [0x03])) (fun t =>
    decide (t.regs = ⟨0xdead, 0x12121212, 0xaaaa, 0xbbbb, 6⟩ ∧ t.runState = .running)) = true := by decide
/-- Vector N1, first step: MOV_LIT_REG naming IP jumps. -/
theorem test_mov_ip_step : after (blockIp [0x01, 0x07, 0, 0, 0, 0x04, 0x00, 0x03]) (fun t =>
    decide (t.regs = ⟨0xdead, 0xbeef, 0xaaaa, 0xbbbb, 7⟩)) = true := by decide
/-- Vector V2, first step: DATA[0x1232..0x1239] = 00 00 FF FF FF FF 00 00. -/
theorem test_store_step : after (block (storeBytes ++ [0x03])) (fun t =>
    decide (t.data.bytesAt 0x1232 8 = [0x00, 0x00, 0xFF, 0xFF, 0xFF, 0xFF, 0x00, 0x00] ∧ t.regs.ip = 9)) = true := by decide
/-- Vector S3: no wrap at 2^32, nothing written. -/
theorem test_store_out_of_bounds : after (block [0x02, 0x01, 0, 0, 0, 0xFF, 0xFF, 0xFF, 0xFF, 0x03]) (fun t =>
    decide (t.status.faultKind = 1 ∧ t.status.faultSpace = 1 ∧ t.status.faultAddr = 0xFFFFFFFF ∧ t.status.faultWidth = 4 ∧
      t.data.cells = [] ∧ t.runState = .halted)) = true := by decide
/-- Vector V3. -/
theorem test_return_step : after (block [0x03]) (fun t =>
    decide (t.regs = ⟨0xdead, 0xbeef, 0xaaaa, 0xbbbb, 1⟩ ∧ t.reply = some (.runResult 0xdead) ∧ t.status.cause = .ret)) = true := by
  decide
/-- Vector T3: IP wraps when RETURN is the last byte of a program memory of 2^32 bytes. -/
theorem test_return_ip_wraps :
    after (fullBlock [(0xFFFFFFFF, 0x03)] 0xFFFFFFFF) (fun t =>
      decide (t.regs.ip = 0 ∧ t.reply = some (.runResult 1))) = true := by decide

/-- R103 at a program memory of 2^32 bytes, where fields wrap: IP wraps between the opcode and the literal. -/
theorem test_mov_reads_on_at_zero :
    after (atIp opcodeAtTop) (fun t => decide (t.regs = ⟨1, 0, 0x12345678, 0, 5⟩ ∧ t.runState = .running)) = true := by decide
/-- R103, where fields wrap: IP wraps between the literal and the address. -/
theorem test_store_reads_on_at_zero :
    after (atIp literalAtTop) (fun t => decide (t.data.cells = [(0x40, 0xAA)] ∧ t.regs.ip = 4)) = true := by decide

/-! ### Fatal errors of the sequencer -/

/-- R120 at a = 0xFFFFFFFF: a + 5 > PROG_MEM_SIZE, in the default block. -/
theorem test_mov_out_of_bounds_at_top : after opcodeAtTop (fun t =>
    decide (t.status.faultKind = 1 ∧ t.status.faultSpace = 0 ∧ t.status.faultAddr = 0 ∧ t.status.faultWidth = 4 ∧
      t.status.faultIaddr = 0xFFFFFFFF ∧ t.regs.r2 = 0)) = true := by decide
/-- R130 at a = 0xFFFFFFFB: a + 9 > PROG_MEM_SIZE, in the default block; no byte is written. -/
theorem test_store_out_of_bounds_at_top : after literalAtTop (fun t =>
    decide (t.status.faultKind = 1 ∧ t.status.faultSpace = 0 ∧ t.status.faultWidth = 4 ∧ t.status.faultIaddr = 0xFFFFFFFB ∧
      t.data.cells = [])) = true := by decide
/-- R45 and R103: a literal that itself crosses 2^32 - 1 is out of bounds, at its own address. -/
theorem test_literal_across_top : after (fullBlock [(0xFFFFFFFD, 0x01)] 0xFFFFFFFD) (fun t =>
    decide (t.status.faultKind = 1 ∧ t.status.faultSpace = 0 ∧ t.status.faultAddr = 0xFFFFFFFE ∧ t.status.faultWidth = 4 ∧
      t.status.faultIaddr = 0xFFFFFFFD)) = true := by decide

/-- Vector V4: IllegalInstruction, FAULT_BYTE 0x00, FAULT_IADDR 0; R0 to R3 unchanged. -/
theorem test_illegal_step : after (block [0x00]) (fun t =>
    decide (t.status.faultKind = 2 ∧ t.status.faultByte = 0x00 ∧ t.status.faultIaddr = 0 ∧ t.regs.r0 = 0xdead ∧
      t.regs.r1 = 0xbeef ∧ t.regs.r2 = 0xaaaa ∧ t.regs.r3 = 0xbbbb ∧ t.status.cause = .fault)) = true := by decide
/-- Vector E8: a start address past the program. -/
theorem test_fetch_out_of_bounds : after { block [0x03] with regs := ⟨0, 0, 0, 0, 1⟩ } (fun t =>
    decide (t.status.faultKind = 1 ∧ t.status.faultSpace = 0 ∧ t.status.faultAddr = 1 ∧ t.status.faultWidth = 1 ∧
      t.status.faultIaddr = 1)) = true := by decide
/-- Program D, first step: with ALIASED the store changes the next opcode byte. -/
theorem test_aliased_store : after { block [] with
      data := mem [0x02, 0x03, 0, 0, 0, 0x09, 0, 0, 0, 0x01, 0x55, 0x55, 0x55, 0x55, 0x00, 0x03], aliased := true } (fun t =>
    decide (t.fetchInstr = .ok .ret 10)) = true := by decide
/-- The word a caller places is the next instruction the block runs, from reset. -/
theorem test_fetch_word_from_reset :
    after (State.reset.withFetchWord 48 0x011212121201) (fun t => decide (t.regs.r1 = 0x12121212 ∧ t.regs.ip = 6)) = true := by decide

/-! ### The host port -/

/-- R101, vector T4: the seeded IP is overwritten by the start address. -/
theorem test_run_starts : after { hosted (.run false 0x20) with regs := ⟨1, 2, 3, 4, 0x1234⟩ } (fun t =>
    decide (t.regs = ⟨1, 2, 3, 4, 0x20⟩ ∧ t.runState = .ready ∧ t.reply = none)) = true := by decide
/-- Vector M7: a block write that runs past the end writes nothing. -/
theorem test_block_write_fails_whole : after (hosted (.write .data 0x1FFE [1, 2, 3] 3)) (fun t =>
    decide (t.data.cells = [] ∧ t.reply = some .outOfBounds ∧ t.runState = .idle)) = true := by decide
/-- Vector M10: write8 stores the low 8 bits and answers 1. -/
theorem test_write8_low_bits : after (hosted (.write8 .data 7 0x1FF)) (fun t =>
    decide (t.data.cells = [(7, 0xFF)] ∧ t.reply = some (.count 1))) = true := by decide
/-- Vectors M8 and M9: a length of 0 at the size and past it. -/
theorem test_block_write_empty :
    after (hosted (.write .data 0x2000 [] 0)) (fun t => decide (t.reply = some .done)) = true ∧
    after (hosted (.write .data 0x2001 [] 0)) (fun t => decide (t.reply = some .outOfBounds)) = true := by decide
/-- R30: RUN_STATE is read as IDLE = 0. -/
theorem test_read_run_state : after (hosted (.readStatus .runState)) (fun t => decide (t.reply = some (.value 0))) = true := by decide
/-- The model's refusal for a length beyond the bytes given (log entry 13). -/
theorem test_block_write_short_is_refused :
    (match step (hosted (.write .data 0 [] 1)) with | .refused r => decide (r = .blockShorterThanLength) | _ => false) = true := by
  decide

/-! ### Witnesses: the hypotheses of each statement can be met, each clause at its boundary -/

theorem witness_DecodeInvertsEncode : Params.default.wf ∧ (Instr.movLitReg 7 .r3).wf Params.default = true := by decide
theorem witness_EncListsBytesAndDecodesInMemory : Params.default.wf ∧ regId Params.default .r1 = some 0x01 ∧
    encode Params.default (.movLitReg 0x12121212 .r1) = some movBytes ∧ (block movBytes).progMem.size ≤ 2 ^ 32 ∧
    0 + movBytes.length ≤ (block movBytes).progMem.size ∧
    (block movBytes).progMem.bytesAt (block movBytes).regs.ip.toNat movBytes.length = movBytes := by decide
theorem witness_EncodeInvertsDecode : decode Params.default movBytes = .ok (.movLitReg 0x12121212 .r1) [] := by decide
theorem witness_LengthFollowsFromOpcodeByte :
    decode Params.default (0x01 :: [0, 0, 0, 0, 0]) = .ok (.movLitReg 0 .r0) [] ∧
    decode Params.default (0x01 :: [1, 0, 0, 0, 3, 9]) = .ok (.movLitReg 1 .r3) [9] := by decide
theorem witness_DecodeRegFollowsOrder : 4 ≤ (4 : Byte).toNat ∧ decodeReg Params.default 4 = none ∧ decodeReg Params.default 255 = none := by
  decide
theorem witness_DefaultIllegalOpcodes :
    decode Params.default [0x00] = .illegalInstruction 0x00 ∧ decode Params.default [0x04] = .illegalInstruction 0x04 ∧
    decode Params.default [0x03] ≠ .illegalInstruction 0x03 ∧ decode Params.default [0x01] ≠ .illegalInstruction 0x01 := by decide
theorem witness_ReadIsLittleEndian : 0 + Width.w4.bytes ≤ (Memory.zero 4).size ∧ (Memory.zero 4).size < 1 + Width.w4.bytes := by decide
theorem witness_WriteStoresExactlyItsBytes : (Memory.zero 4).wf = true ∧ 0 + Width.w4.bytes ≤ (Memory.zero 4).size ∧
    (Memory.zero 4).size < 1 + Width.w4.bytes := by decide
theorem witness_AccessBoundsAndRoundTrip : (Memory.zero 4).wf = true ∧
    (Memory.zero 4).write 0 .w4 1 = some ⟨4, [(0, 1)]⟩ ∧ (Memory.zero 4).write 3 .w1 0x1FF = some ⟨4, [(3, 0xFF)]⟩ := by decide
theorem witness_NarrowReadsOfWideWrite : (Memory.zero 4).wf = true ∧ (Memory.zero 4).write 0 .w4 1 = some ⟨4, [(0, 1)]⟩ := by decide
theorem witness_EqualBytesEqualMemory : (mem [1, 0, 2]).wf = true ∧ (mem [1, 0, 2]).size = 3 ∧
    ∀ a, (mem [1, 0, 2]).byte a = (⟨3, [(0, 1), (2, 2)]⟩ : Memory).byte a := ⟨by decide, by decide, fun _ => rfl⟩

/-- A run at each instruction, and at each way a fetch fails. -/
theorem witness_StepRunsDecodedInstruction : (block movBytes).inRun ∧
    decode (block movBytes).params ((block movBytes).progMem.bytesAt 0 6) = .ok (.movLitReg 0x12121212 .r1) [] ∧
    (block movBytes).fetchInstr = .ok (.movLitReg 0x12121212 .r1) 6 ∧ (block []).fetchInstr = .outOfBounds 0 .w1 ∧
    (block [0x04]).fetchInstr = .illegalInstruction 0x04 ∧ (block [1, 0, 0, 0, 0, 4]).fetchInstr = .invalidRegister 4 := by decide
theorem witness_StepIsReferenceStep : (block movBytes).inRun ∧ (block movBytes).fieldsAtIp ∧ opcodeAtTop.inRun ∧
    (atIp opcodeAtTop).fieldsAtIp ∧ ¬ opcodeAtTop.fieldsAtIp := by decide
theorem witness_fieldsAtSums : (block movBytes).fieldsAtSums ∧ opcodeAtTop.fieldsAtSums ∧ ¬ (atIp opcodeAtTop).fieldsAtSums := by
  decide
/-- The premise at both sides of its boundary: nine bytes below 2^32, and one too few. -/
theorem witness_fieldsBelowTop : (block movBytes).fieldsBelowTop ∧ (fullBlock [] 0xFFFFFFF7).fieldsBelowTop ∧
    ¬ (fullBlock [] 0xFFFFFFF8).fieldsBelowTop := by decide
/-- R155, vectors P-1 and P-2 and both sides of the data bound. -/
theorem witness_FirstFailingCheckIsReported :
    (block []).firstFailure = some (.outOfBounds .prog 0 .w1) ∧ (block [0x07]).firstFailure = some (.illegalInstruction 0x07) ∧
    (block [1, 0, 0, 0]).firstFailure = some (.outOfBounds .prog 1 .w4) ∧
    (block [1, 0, 0, 0, 0]).firstFailure = some (.outOfBounds .prog 5 .w1) ∧
    (block [2, 0, 0, 0, 0, 0xFF, 0xFF]).firstFailure = some (.outOfBounds .prog 5 .w4) ∧
    (block [1, 0, 0, 0, 0, 4]).firstFailure = some (.invalidRegister 4) ∧
    (block [2, 0, 0, 0, 0, 0xFD, 0x1F, 0, 0]).firstFailure = some (.outOfBounds .data 0x1FFD .w4) ∧
    (block [2, 0, 0, 0, 0, 0xFC, 0x1F, 0, 0]).firstFailure = none ∧ (block movBytes).firstFailure = none ∧
    (block [3]).firstFailure = none := by decide
theorem witness_RunningStepAlwaysAnswers : (block []).inRun ∧ ({ block [] with runState := .running } : State).inRun := by decide
theorem witness_IpAdvancesByLength : (block storeBytes).fetchInstr = .ok (.storeLitMem 0xffffffff 0x1234) 9 ∧
    after (block storeBytes) (fun t => decide (¬(t.runState = .halted ∧ t.status.cause = .fault))) = true := by decide
theorem witness_RunStateTransitions : after (hosted (.run false 0)) (fun t => decide (t.runState = .ready)) = true ∧
    after { hosted (.construct 4 ⟨0, 0, 0, 0, 0⟩) with runState := .halted } (fun t => decide (t.runState = .idle)) = true := by decide
theorem witness_EveryRunHalts : (block movBytes).inRun ∧ (block movBytes).params.regIdIp = none ∧
    (block movBytes).progMem.size < 2 ^ 32 := by decide
theorem witness_RunReturnsRecordedOutcome : after (block [3]) (fun t => decide (t.runState = .halted)) = true ∧
    after (block [0]) (fun t => decide (t.runState = .halted)) = true := by decide
theorem witness_MovLitRegCompletes : Reg.r0 ≠ .ip ∧ Reg.r3 ≠ .ip := by decide
/-- The highest legal address, `DATA_MEM_SIZE - 4` (R130), and the first beyond it. -/
theorem witness_StoreLitMemCompletes : (block []).data.wf = true ∧ storeAddress 0x1FFC + 4 ≤ (block []).data.size := by decide
theorem witness_StoreLitMemOutOfBounds : (block []).data.size < storeAddress 0x1FFD + 4 ∧
    (block []).data.size < storeAddress 0xFFFFFFFF + 4 := by decide
/-- Each clause of MovLitRegStep: no byte, one byte, five bytes, six bytes with id 4, six bytes with id 1. -/
theorem witness_MovLitRegStep : (block []).progMem.size < 0 + 1 ∧ (block [1]).progMem.size < 0 + 5 ∧
    0 + 5 ≤ (block [1, 0, 0, 0, 0]).progMem.size ∧ (block [1, 0, 0, 0, 0]).progMem.size < 0 + 6 ∧
    0 + 6 ≤ (block movBytes).progMem.size ∧ (block movBytes).progMem.byte 0 = (block movBytes).params.opcMovLitReg ∧
    decodeReg (block movBytes).params ((block movBytes).progMem.byte 5) = some .r1 ∧
    decodeReg Params.default ((block [1, 0, 0, 0, 0, 4]).progMem.byte 5) = none := by decide
theorem witness_MovLitIpStep : (blockIp [1, 7, 0, 0, 0, 4]).inRun ∧ (blockIp [1, 7, 0, 0, 0, 4]).progMem.size ≤ 2 ^ 32 ∧ 0 + 6 ≤ (blockIp [1, 7, 0, 0, 0, 4]).progMem.size ∧
    (blockIp [1, 7, 0, 0, 0, 4]).progMem.byte 0 = (blockIp [1, 7, 0, 0, 0, 4]).params.opcMovLitReg ∧
    decodeReg (blockIp [1, 7, 0, 0, 0, 4]).params ((blockIp [1, 7, 0, 0, 0, 4]).progMem.byte 5) = some .ip := by decide
/-- Each clause of StoreLitMemStep, at the last address in bounds (vector S1) and the first out of bounds (S2). -/
theorem witness_StoreLitMemStep : (block storeBytes).params.wf ∧ (block storeBytes).data.wf = true ∧
    (block [2]).progMem.size < 0 + 5 ∧ 0 + 5 ≤ (block [2, 0, 0, 0, 0]).progMem.size ∧ (block [2, 0, 0, 0, 0]).progMem.size < 0 + 9 ∧
    0 + 9 ≤ (block storeBytes).progMem.size ∧ (block storeBytes).progMem.byte 0 = (block storeBytes).params.opcStoreLitMem ∧
    ((block [2, 0, 0, 0, 0, 0xFC, 0x1F, 0, 0]).progMem.word 5).toNat + 4 ≤ (block []).data.size ∧
    (block []).data.size < ((block [2, 0, 0, 0, 0, 0xFD, 0x1F, 0, 0]).progMem.word 5).toNat + 4 := by decide
/-- Each clause of FieldsFollowWrappedIp: a wrapped register id, a wrapped address, a literal and an address across 2^32 - 1, a register
id that names none. -/
theorem witness_FieldsFollowWrappedIp : (atIp opcodeAtTop).inRun ∧ (atIp opcodeAtTop).params.wf ∧ (atIp opcodeAtTop).params.fieldsWrap = true ∧
    (atIp opcodeAtTop).progMem.size = 2 ^ 32 ∧
    (atIp opcodeAtTop).progMem.byte (atIp opcodeAtTop).regs.ip.toNat = (atIp opcodeAtTop).params.opcMovLitReg ∧
    ((atIp opcodeAtTop).regs.ip + 1).toNat + 4 ≤ 2 ^ 32 ∧
    decodeReg (atIp opcodeAtTop).params ((atIp opcodeAtTop).progMem.byte ((atIp opcodeAtTop).regs.ip + 5).toNat) = some .r2 ∧
    (atIp literalAtTop).progMem.byte (atIp literalAtTop).regs.ip.toNat = (atIp literalAtTop).params.opcStoreLitMem ∧
    ((atIp literalAtTop).regs.ip + 1).toNat + 4 ≤ 2 ^ 32 ∧ ((atIp literalAtTop).regs.ip + 5).toNat + 4 ≤ 2 ^ 32 ∧
    2 ^ 32 < ((0xFFFFFFFD : Word) + 1).toNat + 4 ∧ 2 ^ 32 < ((0xFFFFFFF8 : Word) + 5).toNat + 4 ∧
    decodeReg Params.default ((fullBlock [(0, 4)] 0xFFFFFFFB).progMem.byte ((0xFFFFFFFB : Word) + 5).toNat) = none := by decide
theorem witness_ReturnStep : (block [3]).params.wf ∧ 0 + 1 ≤ (block [3]).progMem.size ∧
    (block [3]).progMem.byte 0 = (block [3]).params.opcReturn ∧ (block []).progMem.size < 0 + 1 := by decide
theorem witness_OnlyStoreChangesData : (block storeBytes).data.wf = true ∧
    after (block storeBytes) (fun t => decide (t.data.byte 0x1234 ≠ (block storeBytes).data.byte 0x1234)) = true := by decide
theorem witness_FatalErrorCommitsNothing :
    after (block [0]) (fun t => decide (t.runState = .halted ∧ t.status.cause = .fault)) = true := by decide
theorem witness_StatusWrittenOnlyAtHalt : after (block movBytes) (fun t => decide (t.runState = .running)) = true ∧
    (hosted (.getReg .r0)).betweenRuns ∧ after (hosted (.getReg .r0)) (fun _ => true) = true := by decide
theorem witness_StepKeepsInv : (block [3]).Inv ∧ after (block [3]) (fun _ => true) = true := by
  refine ⟨⟨by decide, by decide, by decide, ?_, ?_, ?_⟩, by decide⟩ <;> intro h <;> cases h
theorem witness_ConstructionValues : StatusField.result ≠ .runState ∧ StatusField.result ≠ .haltCause ∧
    State.reset.status = (State.construct Params.default 0x2000 ⟨0, 0, 0, 0, 0⟩).status := by decide
theorem witness_RunStartsAtStartAddress : (hosted (.run true 5)).betweenRuns ∧ (hosted (.run true 5)).pending = .run true 5 :: [] := by
  decide
theorem witness_StatePersistsBetweenRuns : (hosted (.run false 5)).betweenRuns ∧
    after (hosted (.run false 5)) (fun _ => true) = true ∧ after (hosted (.read8 .data 0)) (fun _ => true) = true := by decide
theorem witness_HostInertDuringRun : (block movBytes).inRun := by decide
theorem witness_HostStepMakesOldestTransaction : (hosted (.getReg .r0)).betweenRuns ∧ (hosted (.getReg .r0)).pending = .getReg .r0 :: [] := by
  decide
theorem witness_WaitsForHostBetweenRuns : State.reset.betweenRuns ∧ State.reset.pending = [] := by decide
/-- Both sides of the bound, and a length of 0 at the size. -/
theorem witness_HostBlockWrite : (State.reset.hostMem .data).wf = true ∧
    (State.reset.hostMem .data).size < (0x1FFE : Word).toNat + 3 ∧ (0x1FFD : Word).toNat + 3 ≤ (State.reset.hostMem .data).size ∧
    (0x2000 : Word).toNat + 0 ≤ (State.reset.hostMem .data).size ∧
    (State.reset.hostMem .data).write 0 .w1 1 = some ⟨0x2000, [(0, 1)]⟩ ∧
    (State.reset.hostMem .data).write 0 .w4 1 = some ⟨0x2000, [(0, 1)]⟩ := by decide
theorem witness_HostAccessOutOfBounds : (State.reset.hostMem .data).size < (0x2000 : Word).toNat + 1 ∧
    (State.reset.hostMem .data).size < (0x1FFD : Word).toNat + 4 ∧ (State.reset.hostMem .data).size < (0x2001 : Word).toNat + 0 := by
  decide
theorem witness_HostReadsArePure : (State.reset.hostMem .data).read 0x1FFF .w1 = some 0 ∧
    (State.reset.hostMem .data).read 0x1FFC .w4 = some 0 := by decide
/-- Every branch of StatusReadsByMeaning is taken: no halt yet, a halt by RETURN, and one of each fatal error. -/
theorem witness_StatusReadsByMeaning : State.reset.status.cause ≠ .ret ∧ State.reset.status.cause ≠ .fault ∧
    after (block [3]) (fun t => decide (t.status.cause = .ret)) = true ∧
    after (block []) (fun t => decide (t.status.cause = .fault ∧ t.status.faultKind = 1)) = true ∧
    after (block [0]) (fun t => decide (t.status.cause = .fault ∧ t.status.faultKind = 2)) = true ∧
    after (block [1, 0, 0, 0, 0, 4]) (fun t => decide (t.status.cause = .fault ∧ t.status.faultKind = 3)) = true := by decide
theorem witness_ConstructionSizes : Config.maxMemSize ≤ 2 ^ 32 ∧ 2 ^ 32 < Config.maxMemSize + 1 := by decide
theorem witness_ParamsNeverChange : after (block movBytes) (fun t => decide (t.params = Params.default)) = true := by decide
theorem witness_RunNeverWritesProgram : after (block storeBytes) (fun t => decide (t.prog = mem storeBytes)) = true ∧
    (block storeBytes).aliased = false := by decide
theorem witness_AliasedStoreReachesFetch : ({ block [] with aliased := true } : State).data.wf = true ∧
    storeAddress 0x1FFC + 4 ≤ ({ block [] with aliased := true } : State).data.size := by decide
theorem witness_UpperRegistersNeverRead : (block movBytes).inRun := by decide
theorem witness_DataNeverRead : (block storeBytes).inRun ∧ (block storeBytes).aliased = false ∧
    (⟨0x2000, [(0x1234, 0x55)]⟩ : Memory).size = (block storeBytes).data.size ∧ (block storeBytes).data.wf = true ∧
    (⟨0x2000, [(0x1234, 0x55)]⟩ : Memory).wf = true := by decide

end Sys2Proof.Tests
end

section
/-! PROOFS. The family of `00_scope.md`: every step keeps the block's invariant, one rule per operation of the state, then one per agent. -/

namespace Sys2Proof.Machine

/-! ### The invariant under each operation of a run. -/

theorem State.Inv.enterRunning {s : State} (h : s.Inv) : s.enterRunning.Inv where
  params := h.params
  data := h.data
  prog := h.prog
  legal := h.legal
  idle := nofun
  halted := nofun

theorem State.Inv.advance {s : State} (h : s.Inv) (k : Nat) : (s.advance k).Inv :=
  ⟨h.params, h.data, h.prog, h.legal, h.idle, h.halted⟩

theorem State.Inv.setReg {s : State} (h : s.Inv) (r : Reg) (v : Word) : (s.setReg r v).Inv :=
  ⟨h.params, h.data, h.prog, h.legal, h.idle, h.halted⟩

theorem State.Inv.setData {s : State} (h : s.Inv) {m : Memory} (hm : m.wf = true) : (s.setData m).Inv :=
  ⟨h.params, hm, h.prog, h.legal, h.idle, h.halted⟩

/-- A run that ends by RETURN records a cause, and no fault (R106). -/
theorem State.Inv.halt {s : State} (h : s.Inv) (v : Word) : (s.halt v).Inv where
  params := h.params
  data := h.data
  prog := h.prog
  legal := nofun
  idle := nofun
  halted := nofun

/-- A fatal error records a fault that reads back as that error (R154). -/
theorem State.Inv.raise {s : State} (h : s.Inv) (e : FatalError) : (s.raise e).Inv where
  params := h.params
  data := h.data
  prog := h.prog
  legal _ := by simp
  idle := nofun
  halted _ := by simp

/-! ### The invariant under each agent's step. -/

theorem State.Inv.of_step_inRun {s t : State} (hs : s.Inv) (h : s.inRun) (ht : step s = .next t) : t.Inv := by
  rcases step_next_of_inRun h ht with
    ⟨i, nextAddr, -, ⟨lit, r, -, rfl⟩ | ⟨lit, addr, -, hb, rfl⟩ | ⟨-, rfl⟩⟩ | ⟨e, rfl⟩
  · exact (hs.enterRunning.advance 6).setReg r lit
  · have hm := Memory.setBytes_wf (leBytes 4 lit.toNat) hs.data (by rwa [leBytes_length])
    exact (hs.enterRunning.advance 9).setData hm
  · exact (hs.enterRunning.advance 1).halt s.regs.r0
  · exact hs.enterRunning.raise e

/-- A fresh block keeps the parameters and the host's program memory, and has not halted (R39, R176). -/
theorem State.Inv.reconstruct {s : State} (h : s.Inv) {size : Nat} (hsize : size ≤ Config.maxMemSize) (init : RegFile) :
    (s.reconstruct size init).Inv where
  params := h.params
  data := Memory.zero_wf hsize
  prog := h.prog
  legal := nofun
  idle _ := rfl
  halted := nofun

theorem State.Inv.answer {s : State} (h : s.Inv) (r : HostReply) : (s.answer r).Inv :=
  ⟨h.params, h.data, h.prog, h.legal, h.idle, h.halted⟩

theorem State.Inv.withPending {s : State} (h : s.Inv) (ops : List HostOp) : (s.withPending ops).Inv :=
  ⟨h.params, h.data, h.prog, h.legal, h.idle, h.halted⟩

/-- A state that differs from one with the invariant in memories of canonical form, and perhaps in being READY. -/
theorem State.Inv.of_frame {s t : State} (h : s.Inv) (hparams : t.params = s.params) (hstatus : t.status = s.status)
    (hdata : t.data.wf = true) (hprog : t.prog.wf = true) (hrun : t.runState = s.runState ∨ t.runState = .ready) : t.Inv where
  params := hparams ▸ h.params
  data := hdata
  prog := hprog
  legal := hstatus ▸ h.legal
  idle ht := by
    rcases hrun with hr | hr
    · rw [hstatus, h.idle (hr ▸ ht)]
    · cases hr.symm.trans ht
  halted ht := by
    rcases hrun with hr | hr
    · rw [hstatus]
      exact h.halted (hr ▸ ht)
    · cases hr.symm.trans ht

theorem State.Inv.of_hostExec {op : HostOp} {s t : State} (hs : s.Inv) (ht : hostExec op s = .next t) : t.Inv := by
  by_cases hc : ∃ size init, op = .construct size init
  · obtain ⟨size, init, rfl⟩ := hc
    obtain ⟨hsize, rfl⟩ := hostExec_construct ht
    exact (hs.reconstruct hsize init).answer .done
  · obtain ⟨hparams, hstatus, -, hrun⟩ := hostExec_frame ht fun size init h => hc ⟨size, init, h⟩
    obtain ⟨hdata, hprog⟩ := hostExec_wf hs.data hs.prog ht
    exact hs.of_frame hparams hstatus hdata hprog (hrun.imp_right fun ⟨_, _, _, hready⟩ => hready)

/-- Settles O35: a step is the sequencer's or the host's oldest transaction, and each agent keeps the invariant. -/
theorem stepKeepsInv : Obligations.StepKeepsInv := by
  intro s t hs ht
  rcases s.inRun_or_betweenRuns with h | h
  · exact hs.of_step_inRun h ht
  · obtain ⟨op, ops, -, hop⟩ := step_next_of_betweenRuns h ht
    exact (hs.withPending ops).of_hostExec hop

end Sys2Proof.Machine
end

section
/-! PROOFS. The family of `10_state.md`: the canonical form of a memory, the registers a run moves and never reads, what a transaction of
the host can do to the state, and the reads of the halt status. -/

namespace Sys2Proof.Machine

/-! ### The canonical form is unique. -/

/-- The first listed byte differs from the unlisted value, so cells that read the same there begin no later. -/
theorem cellsWf_start_le {size lo lo' k : Nat} {v : Byte} {cs cs' : List Host.Cell} (h : cellsWf size lo ((k, v) :: cs) = true)
    (h' : cellsWf size lo' cs' = true) (hget : cellGet ((k, v) :: cs) k = cellGet cs' k) : lo' ≤ k := by
  obtain ⟨-, -, hv, -⟩ := cellsWf_cons.mp h
  by_contra hlt
  rw [cellGet_below h' (Nat.not_le.mp hlt), cellGet, if_pos rfl] at hget
  exact hv hget

/-- Cells in canonical form that read the same at every address are the same cells. -/
theorem cells_ext {size lo : Nat} {cs cs' : List Host.Cell} (h : cellsWf size lo cs = true) (h' : cellsWf size lo cs' = true)
    (hget : ∀ a, cellGet cs a = cellGet cs' a) : cs = cs' := by
  induction cs generalizing lo cs' with
  | nil =>
    cases cs' with
    | nil => rfl
    | cons c' cs' =>
      have := cellsWf_start_le (lo' := c'.1 + 1) h' rfl (hget c'.1).symm
      omega
  | cons c cs ih =>
    obtain ⟨k, v⟩ := c
    obtain ⟨-, hk, hv, hcs⟩ := cellsWf_cons.mp h
    cases cs' with
    | nil =>
      have := cellsWf_start_le (lo' := k + 1) h rfl (hget k)
      omega
    | cons c' cs' =>
      obtain ⟨k', v'⟩ := c'
      obtain ⟨-, hk', hv', hcs'⟩ := cellsWf_cons.mp h'
      have hkk : k = k' := Nat.le_antisymm
        (cellsWf_start_le h' (cellsWf_cons.mpr ⟨le_rfl, hk, hv, hcs⟩) (hget k').symm)
        (cellsWf_start_le h (cellsWf_cons.mpr ⟨le_rfl, hk', hv', hcs'⟩) (hget k))
      subst hkk
      have hvv : v = v' := by simpa [cellGet] using hget k
      have htail : ∀ a, cellGet cs a = cellGet cs' a := by
        intro a
        by_cases ha : k = a
        · rw [cellGet_below hcs (by omega), cellGet_below hcs' (by omega)]
        · simpa [cellGet, ha] using hget a
      rw [hvv, ih hcs hcs' htail]

/-- Settles O12: the listed cells of the two memories are the same. -/
theorem equalBytesEqualMemory : Obligations.EqualBytesEqualMemory := by
  rintro ⟨size, cells⟩ ⟨size', cells'⟩ h h' hsize hbyte
  cases hsize
  have hcells : cells = cells' := cells_ext (Memory.wf_iff.mp h).2 (Memory.wf_iff.mp h').2 hbyte
  rw [hcells]

/-! ### The advance of IP. -/

/-- R27: IP advances modulo 2^32. -/
theorem State.advance_ip_toNat (s : State) (k : Nat) : (s.advance k).regs.ip.toNat = (s.regs.ip.toNat + k) % 2 ^ 32 := by
  simp

/-- Settles O17: each instruction advances IP by its own length, and only MOV_LIT_REG naming IP writes it afterwards. -/
theorem ipAdvancesByLength : Obligations.IpAdvancesByLength := by
  intro s t i nextAddr hrun hfetch ht hcomplete hnotIp
  rcases step_next_of_inRun hrun ht with ⟨j, next', hj, heffect⟩ | ⟨e, rfl⟩
  · obtain ⟨rfl, -⟩ := DecodeResult.ok.inj (hfetch.symm.trans hj)
    rcases heffect with ⟨lit, r, rfl, rfl⟩ | ⟨lit, addr, rfl, -, rfl⟩ | ⟨rfl, rfl⟩
    · have hr : r ≠ .ip := fun hr => hnotIp lit (hr ▸ rfl)
      rw [State.setReg_regs, RegFile.set_ip, if_neg hr]
      exact s.enterRunning.advance_ip_toNat 6
    · exact s.enterRunning.advance_ip_toNat 9
    · exact s.enterRunning.advance_ip_toNat 1
  · exact absurd ⟨rfl, s.status.record_cause e _⟩ hcomplete

/-! ### The halt status between halts. -/

/-- Settles O34: the effects that write the halt status are those that halt, and of the host's transactions only construct does. -/
theorem statusWrittenOnlyAtHalt : Obligations.StatusWrittenOnlyAtHalt := by
  intro s t ht
  constructor
  · intro hrun hrunning
    rcases step_next_of_inRun hrun ht with
      ⟨i, nextAddr, -, ⟨lit, r, -, rfl⟩ | ⟨lit, addr, -, -, rfl⟩ | ⟨-, rfl⟩⟩ | ⟨e, rfl⟩
    · rfl
    · rfl
    · cases hrunning
    · cases hrunning
  · intro hbetween hnot
    obtain ⟨op, ops, hp, hop⟩ := step_next_of_betweenRuns hbetween ht
    obtain ⟨-, hstatus, -, -⟩ := hostExec_frame hop fun size init hc => hnot size init ops (hc ▸ hp)
    exact hstatus

/-! ### What a transaction of the host can do. -/

/-- The transactions that may put another memory in place of one of the two (R180, R183), construct aside. -/
def HostOp.writes : HostOp → Space → Prop
  | .write sp _ _ _, q => q = sp
  | .write8 sp _ _, q => q = sp
  | .write32 sp _ _, q => q = sp
  | .newProgram _, q => q = .prog
  | _, _ => False

theorem State.hostWrite_cases (s : State) (sp : Space) (addr : Word) (w : Width) (v : Word) :
    (∃ m r, s.hostWrite sp addr w v = (s.setHostMem sp m).answer r) ∨ ∃ r, s.hostWrite sp addr w v = s.answer r := by
  unfold State.hostWrite
  split
  · exact .inl ⟨_, _, rfl⟩
  · exact .inr ⟨_, rfl⟩

theorem State.hostRead_eq_answer (s : State) (sp : Space) (addr : Word) (w : Width) :
    ∃ r, s.hostRead sp addr w = s.answer r := by
  unfold State.hostRead
  split <;> exact ⟨_, rfl⟩

/-- Everything a transaction of the host can do: construct a block, write a register, start a run, replace a memory it writes, or only
answer, with a draw or without. -/
theorem hostExec_cases {op : HostOp} {s t : State} (h : hostExec op s = .next t) :
    (∃ size init, op = .construct size init) ∨
    (∃ r v, op = .setReg r v ∧ t = (s.setReg r v).answer .done) ∨
    (∃ al st, op = .run al st ∧ t = s.startRun al st) ∨
    (∃ sp m r, op.writes sp ∧ t = (s.setHostMem sp m).answer r) ∨
    ∃ r n, t = { s with reply := some r, draws := n } := by
  have answered : ∀ r, t = s.answer r → ∃ r n, t = { s with reply := some r, draws := n } := fun r ht => ⟨r, s.draws, ht⟩
  cases op with
  | construct size init => exact .inl ⟨size, init, rfl⟩
  | setReg r v => cases h; exact .inr (.inl ⟨r, v, rfl, rfl⟩)
  | run al st => cases h; exact .inr (.inr (.inl ⟨al, st, rfl, rfl⟩))
  | write sp addr bytes length =>
    simp only [hostExec] at h
    split at h
    · split at h <;> cases h
      exact .inr (.inr (.inr (.inl ⟨sp, _, _, rfl, rfl⟩)))
    · cases h; exact .inr (.inr (.inr (.inr (answered _ rfl))))
  | write8 sp addr v =>
    cases h
    rcases s.hostWrite_cases sp addr .w1 v with ⟨m, r, hm⟩ | ⟨r, hr⟩
    · exact .inr (.inr (.inr (.inl ⟨sp, m, r, rfl, hm⟩)))
    · exact .inr (.inr (.inr (.inr (answered r hr))))
  | write32 sp addr v =>
    cases h
    rcases s.hostWrite_cases sp addr .w4 v with ⟨m, r, hm⟩ | ⟨r, hr⟩
    · exact .inr (.inr (.inr (.inl ⟨sp, m, r, rfl, hm⟩)))
    · exact .inr (.inr (.inr (.inr (answered r hr))))
  | newProgram size =>
    simp only [hostExec] at h
    split at h <;> cases h
    exact .inr (.inr (.inr (.inl ⟨.prog, _, _, rfl, rfl⟩)))
  | read8 sp addr =>
    cases h
    obtain ⟨r, hr⟩ := s.hostRead_eq_answer sp addr .w1
    exact .inr (.inr (.inr (.inr (answered r hr))))
  | read32 sp addr =>
    cases h
    obtain ⟨r, hr⟩ := s.hostRead_eq_answer sp addr .w4
    exact .inr (.inr (.inr (.inr (answered r hr))))
  | readStatus f =>
    simp only [hostExec, State.readStatus] at h
    split at h <;> cases h <;> exact .inr (.inr (.inr (.inr ⟨_, _, rfl⟩)))
  | getReg r => cases h; exact .inr (.inr (.inr (.inr (answered _ rfl))))
  | inspectMemory sp => cases h; exact .inr (.inr (.inr (.inr (answered _ rfl))))
  | inspectRegisters => cases h; exact .inr (.inr (.inr (.inr (answered _ rfl))))

/-- A register other than IP does not see a write of IP. -/
theorem RegFile.get_withIp (f : RegFile) (v : Word) {q : Reg} (hq : q ≠ .ip) : ({ f with ip := v } : RegFile).get q = f.get q := by
  cases q
  case ip => exact absurd rfl hq
  all_goals rfl

/-- R38: what a transaction that is no construct and no setReg does to the registers. -/
theorem hostExec_regs {op : HostOp} {s t : State} (h : hostExec op s = .next t) (hc : ∀ size init, op ≠ .construct size init)
    (hset : ∀ r v, op ≠ .setReg r v) : t.regs = s.regs ∨ ∃ al st, op = .run al st ∧ t.regs = { s.regs with ip := st } := by
  rcases hostExec_cases h with ⟨size, init, hop⟩ | ⟨r, v, hop, -⟩ | ⟨al, st, hop, rfl⟩ | ⟨sp, m, r, -, rfl⟩ | ⟨r, n, rfl⟩
  · exact absurd hop (hc size init)
  · exact absurd hop (hset r v)
  · exact .inr ⟨al, st, hop, rfl⟩
  · exact .inl (s.setHostMem_regs sp m)
  · exact .inl rfl

/-- R38: a transaction that is no construct and writes no data memory leaves it. -/
theorem hostExec_data {op : HostOp} {s t : State} (h : hostExec op s = .next t) (hc : ∀ size init, op ≠ .construct size init)
    (hw : ¬ op.writes .data) : t.data = s.data := by
  rcases hostExec_cases h with ⟨size, init, hop⟩ | ⟨r, v, -, rfl⟩ | ⟨al, st, -, rfl⟩ | ⟨sp, m, r, hsp, rfl⟩ | ⟨r, n, rfl⟩
  · exact absurd hop (hc size init)
  · rfl
  · rfl
  · cases sp with
    | prog => rfl
    | data => exact absurd hsp hw
  · rfl

/-- The transactions that write data memory are the three writes. -/
theorem HostOp.writes_data {op : HostOp} (h : op.writes .data) :
    (∃ addr bytes n, op = .write .data addr bytes n) ∨ (∃ addr v, op = .write8 .data addr v) ∨
      ∃ addr v, op = .write32 .data addr v := by
  cases op <;> cases h
  · exact .inl ⟨_, _, _, rfl⟩
  · exact .inr (.inl ⟨_, _, rfl⟩)
  · exact .inr (.inr ⟨_, _, rfl⟩)

/-- Settles O40: a step between runs is one transaction, which leaves the registers but for the IP of a run, and data memory but for the
three writes. -/
theorem statePersistsBetweenRuns : Obligations.StatePersistsBetweenRuns := by
  intro s t op ops hbetween hpending ht hc hset
  obtain ⟨op', ops', hp, hop⟩ := step_next_of_betweenRuns hbetween ht
  obtain ⟨rfl, rfl⟩ := List.cons.inj (hpending.symm.trans hp)
  have hregs := hostExec_regs hop hc hset
  refine ⟨fun q hq => ?_, fun h h8 h32 => hostExec_data (s := s.withPending ops) hop hc fun hw => ?_,
    fun hrun => ?_, ?_⟩
  · rcases hregs with hr | ⟨al, st, -, hr⟩
    · rw [State.getReg, hr]; rfl
    · rw [State.getReg, hr]; exact RegFile.get_withIp s.regs st hq
  · rcases HostOp.writes_data hw with ⟨addr, bytes, n, hw⟩ | ⟨addr, v, hw⟩ | ⟨addr, v, hw⟩
    · exact h addr bytes n hw
    · exact h8 addr v hw
    · exact h32 addr v hw
  · rcases hregs with hr | ⟨al, st, hal, -⟩
    · rw [hr]
    · exact absurd hal (hrun al st)
  · rintro al st rfl
    cases hop
    rfl

/-! ### R1, R2 and R3 are never read. -/

/-- A step from `s` led to `t`, and one from `s` with v1, v2 and v3 in R1, R2 and R3 led to `t'`: R22's relation of the two. -/
def State.UpperUnread (s : State) (v1 v2 v3 : Word) (t t' : State) : Prop :=
  t.sameButUpper t' ∧
    ((t.regs.r1 = s.regs.r1 ∧ t'.regs.r1 = v1) ∨ t.regs.r1 = t'.regs.r1) ∧
    ((t.regs.r2 = s.regs.r2 ∧ t'.regs.r2 = v2) ∨ t.regs.r2 = t'.regs.r2) ∧
    ((t.regs.r3 = s.regs.r3 ∧ t'.regs.r3 = v3) ∨ t.regs.r3 = t'.regs.r3)

/-- An effect that keeps the three registers. -/
theorem State.UpperUnread.of_kept {s t : State} (v1 v2 v3 : Word) (h1 : t.regs.r1 = s.regs.r1) (h2 : t.regs.r2 = s.regs.r2)
    (h3 : t.regs.r3 = s.regs.r3) : s.UpperUnread v1 v2 v3 t (t.withUpper v1 v2 v3) :=
  ⟨rfl, .inl ⟨h1, rfl⟩, .inl ⟨h2, rfl⟩, .inl ⟨h3, rfl⟩⟩

/-- One register of two runs, kept in both or the same in both, stays so when both write `lit` to it (where `c` holds) or neither does. -/
theorem kept_or_same_of_write {c : Prop} [Decidable c] {x x' y y' lit : Word} (h : (x = y ∧ x' = y') ∨ x = x') :
    ((if c then lit else x) = y ∧ (if c then lit else x') = y') ∨ (if c then lit else x) = if c then lit else x' := by
  by_cases hc : c
  · exact .inr (by rw [if_pos hc, if_pos hc])
  · simpa only [if_neg hc] using h

/-- A literal written to a register is the same in both. -/
theorem State.UpperUnread.setReg {s t t' : State} {v1 v2 v3 : Word} (h : s.UpperUnread v1 v2 v3 t t') (r : Reg) (lit : Word) :
    s.UpperUnread v1 v2 v3 (t.setReg r lit) (t'.setReg r lit) := by
  obtain ⟨hsame, h1, h2, h3⟩ := h
  have hwrite : ∀ u : State, (u.setReg r lit).withUpper 0 0 0 = ((u.withUpper 0 0 0).setReg r lit).withUpper 0 0 0 := by
    intro u
    cases r <;> rfl
  refine ⟨?_, ?_, ?_, ?_⟩
  · rw [State.sameButUpper, hwrite, hsame, ← hwrite]
  · simpa only [State.setReg_regs, RegFile.set_r1] using kept_or_same_of_write h1
  · simpa only [State.setReg_regs, RegFile.set_r2] using kept_or_same_of_write h2
  · simpa only [State.setReg_regs, RegFile.set_r3] using kept_or_same_of_write h3

/-- No instruction's effect reads R1, R2 or R3. -/
theorem exec_upperUnread (i : Instr) (s : State) (v1 v2 v3 : Word) :
    nextRelated (s.UpperUnread v1 v2 v3) (exec i s) (exec i (s.withUpper v1 v2 v3)) := by
  cases i with
  | movLitReg lit r =>
    have hadvance : s.UpperUnread v1 v2 v3 (s.advance 6) ((s.advance 6).withUpper v1 v2 v3) := .of_kept v1 v2 v3 rfl rfl rfl
    exact ⟨_, _, rfl, rfl, hadvance.setReg r lit⟩
  | storeLitMem lit addr =>
    rcases Nat.lt_or_ge s.data.size (addr.toNat + 4) with h | h
    · exact ⟨_, _, execStoreLitMem_outOfBounds h, execStoreLitMem_outOfBounds h, .of_kept v1 v2 v3 rfl rfl rfl⟩
    · exact ⟨_, _, execStoreLitMem_inBounds h, execStoreLitMem_inBounds h, .of_kept v1 v2 v3 rfl rfl rfl⟩
  | ret => exact ⟨_, _, rfl, rfl, .of_kept v1 v2 v3 rfl rfl rfl⟩

/-- The fetch reads no register but IP. -/
theorem State.fetchInstr_withUpper (s : State) (v1 v2 v3 : Word) : (s.withUpper v1 v2 v3).fetchInstr = s.fetchInstr := rfl

/-- Settles O52: both runs fetch alike, and neither a raise nor an instruction reads the three registers. -/
theorem upperRegistersNeverRead : Obligations.UpperRegistersNeverRead := by
  intro s v1 v2 v3 hrun
  have hraise : ∀ e, nextRelated (s.UpperUnread v1 v2 v3) (.next (s.enterRunning.raise e))
      (.next ((s.withUpper v1 v2 v3).enterRunning.raise e)) := fun e => ⟨_, _, rfl, rfl, .of_kept v1 v2 v3 rfl rfl rfl⟩
  suffices h : nextRelated (s.UpperUnread v1 v2 v3) (stepRun s) (stepRun (s.withUpper v1 v2 v3)) by
    rwa [step_running hrun, step_running (s := s.withUpper v1 v2 v3) hrun]
  unfold stepRun
  rw [State.fetchInstr_withUpper]
  cases s.fetchInstr with
  | ok i nextAddr => exact exec_upperUnread i s.enterRunning v1 v2 v3
  | outOfBounds a w => exact hraise _
  | illegalInstruction b => exact hraise _
  | invalidRegister b => exact hraise _

/-! ### Reset and construction. -/

/-- A block of distinct parameters and a size of R6 meets the invariant when it is constructed. -/
theorem State.construct_inv {p : Params} (hp : p.wf) {size : Nat} (hsize : size ≤ Config.maxMemSize) (init : RegFile) :
    (State.construct p size init).Inv where
  params := hp
  data := Memory.zero_wf hsize
  prog := Memory.zero_wf (Nat.zero_le _)
  legal := nofun
  idle _ := rfl
  halted := nofun

/-- Settles O36: reset is construction at the default parameters. -/
theorem resetHasInv : Obligations.ResetHasInv :=
  State.construct_inv (by decide) (by decide) _

/-! ### Reads of the halt status. -/

/-- A read of a status field, where `P` says when the field has a meaning: the stored value, or a free value of the field's width. -/
theorem hostExec_readStatus {s : State} {f : StatusField} {P : Prop} [Decidable P] (h : s.status.meaningful f = true ↔ P) :
    hostExec (.readStatus f) s =
      .next (if P then { s with reply := some (.value (s.statusValue f)) } else s.answerFree f.bits) := by
  rw [← if_congr h rfl rfl]
  rfl

/-- A read of a field that always has a meaning. -/
theorem hostExec_readStatus_of_meaningful {s : State} {f : StatusField} (h : s.status.meaningful f = true) {v : Word}
    (hv : s.statusValue f = v) : hostExec (.readStatus f) s = .next { s with reply := some (.value v) } := by
  rw [hostExec_readStatus (P := True) (iff_true_intro h), if_pos trivial, hv]

/-- R31, R39: before the first halt only RUN_STATE and HALT_CAUSE have a meaning. -/
theorem HaltStatus.initial_meaningful {f : StatusField} (h : f ≠ .runState) (h' : f ≠ .haltCause) :
    HaltStatus.initial.meaningful f = false := by
  cases f
  case runState => exact absurd rfl h
  case haltCause => exact absurd rfl h'
  all_goals rfl

/-- Settles O37: the fields by construction, the status reads because no field of a fresh halt status has a meaning. -/
theorem constructionValues : Obligations.ConstructionValues := by
  intro p size init
  refine ⟨rfl, rfl, Memory.zero_byte size, Memory.zero_byte, rfl, rfl, fun f hf hf' s hs => ?_⟩
  have hmeaning : s.status.meaningful f = false := hs ▸ HaltStatus.initial_meaningful hf hf'
  rw [hostExec_readStatus (P := False) (by simp [hmeaning]), if_neg not_false]
  rfl

/-- Settles O47: each field's meaning (R31) is the condition of its clause. -/
theorem statusReadsByMeaning : Obligations.StatusReadsByMeaning := by
  intro s
  refine ⟨hostExec_readStatus_of_meaningful rfl ?_, hostExec_readStatus_of_meaningful rfl ?_, hostExec_readStatus ?_,
    hostExec_readStatus ?_, hostExec_readStatus ?_, hostExec_readStatus ?_, hostExec_readStatus ?_, hostExec_readStatus ?_,
    hostExec_readStatus ?_⟩
  · rw [State.statusValue]
    cases s.runState <;> rfl
  · rw [State.statusValue]
    cases s.status.cause <;> rfl
  all_goals simp [HaltStatus.meaningful]

end Sys2Proof.Machine
end

section
/-! PROOFS. The family of `20_memory.md`: which bytes a typed write stores, what a read of some of them gives, the block write, and the
memory a run fetches from. -/

namespace Sys2Proof.Machine

/-! ### The value a read gives (R43). -/

theorem pow_widthBytes_le (w : Width) : 256 ^ w.bytes ≤ 2 ^ 32 := by
  cases w <;> decide

theorem Memory.leNat_bytesAt_lt (m : Memory) (a n : Nat) : leNat (m.bytesAt a n) < 256 ^ n := by
  have hlt := leNat_lt (m.bytesAt a n)
  rwa [Memory.bytesAt_length] at hlt

/-- The number of the bytes read fits in a word, so nothing of it is cut. -/
theorem Memory.toNat_ofNat_bytesAt (m : Memory) (a : Nat) (w : Width) :
    (BitVec.ofNat 32 (leNat (m.bytesAt a w.bytes))).toNat = leNat (m.bytesAt a w.bytes) := by
  rw [BitVec.toNat_ofNat, Nat.mod_eq_of_lt ((m.leNat_bytesAt_lt a w.bytes).trans_le (pow_widthBytes_le w))]

/-- Byte i of the number of some bytes of a memory is the byte at address a + i. -/
theorem Memory.ofNat_leNat_bytesAt_div (m : Memory) (a : Nat) {n i : Nat} (hi : i < n) :
    BitVec.ofNat 8 (leNat (m.bytesAt a n) / 256 ^ i) = m.byte (a + i) := by
  have hbytes := leBytes_leNat (m.bytesAt a n)
  rw [Memory.bytesAt_length] at hbytes
  rw [← leBytes_getElem n _ i (by rwa [leBytes_length]), List.getElem_of_eq hbytes, Memory.bytesAt_getElem]

/-- Settles O8: the value read is the number of the bytes at the address, and the bytes of that number are those bytes. -/
theorem readIsLittleEndian : Obligations.ReadIsLittleEndian := by
  intro m a w
  refine ⟨fun hin => ⟨_, Memory.read_eq_some.mpr ⟨hin, rfl⟩, ?_, fun i hi => ?_⟩, Memory.read_eq_none.mpr⟩
  · rw [Memory.toNat_ofNat_bytesAt]
    exact m.leNat_bytesAt_lt a w.bytes
  · rw [← ofNat_div_eq_extract, Memory.toNat_ofNat_bytesAt, Memory.ofNat_leNat_bytesAt_div m a hi]

/-! ### The bytes a typed write stores (R44). -/

/-- Inside a stored value a byte is the value's byte of that number. -/
theorem Memory.byte_setBytes_leBytes {m : Memory} {a n i : Nat} (v : Word) (h : m.wf = true) (ha : a + n ≤ m.size) (hi : i < n) :
    (m.setBytes a (leBytes n v.toNat)).byte (a + i) = v.extractLsb' (8 * i) 8 := by
  rw [Memory.byte_setBytes_in _ h (by rwa [leBytes_length]) i (by rwa [leBytes_length]), leBytes_getElem, ofNat_div_eq_extract]

/-- Outside a stored value every byte is as before. -/
theorem Memory.byte_setBytes_leBytes_out {m : Memory} {a n x : Nat} (v : Word) (h : m.wf = true) (ha : a + n ≤ m.size)
    (hx : x < a ∨ a + n ≤ x) : (m.setBytes a (leBytes n v.toNat)).byte x = m.byte x :=
  Memory.byte_setBytes_out _ h (by rwa [leBytes_length]) x (by rwa [leBytes_length])

/-- Settles O9: the memory after the write is the one with the value's low bytes stored. -/
theorem writeStoresExactlyItsBytes : Obligations.WriteStoresExactlyItsBytes := by
  intro m a w v h
  refine ⟨fun hin => ⟨_, Memory.write_eq_some.mpr ⟨hin, rfl⟩, ?_, fun i hi => ?_, fun x hx => ?_⟩, Memory.write_eq_none.mpr⟩
  · exact Memory.setBytes_size _ _ _
  · exact Memory.byte_setBytes_leBytes v h hin hi
  · exact Memory.byte_setBytes_leBytes_out v h hin hx

/-! ### A read of what was written (R48, R60). -/

/-- The bytes at an address inside a stored value are those of the value from that byte on. -/
theorem Memory.bytesAt_setBytes_leBytes {m : Memory} {a n k j : Nat} (v : Word) (h : m.wf = true) (ha : a + n ≤ m.size)
    (hk : k + j ≤ n) : (m.setBytes a (leBytes n v.toNat)).bytesAt (a + k) j = leBytes j (v.toNat / 256 ^ k) := by
  refine List.ext_getElem (by simp) fun i hi _ => ?_
  rw [Memory.bytesAt_length] at hi
  rw [Memory.bytesAt_getElem, leBytes_getElem, Nat.add_assoc, Memory.byte_setBytes_leBytes v h ha (by omega),
    ← ofNat_div_eq_extract, Nat.div_div_eq_div_mul, ← Nat.pow_add]

/-- The j bytes of a word from byte k on, as a number, are its bits 8k up, 8j of them. -/
theorem leNat_leBytes_eq_extract (v : Word) (k j : Nat) :
    BitVec.ofNat 32 (leNat (leBytes j (v.toNat / 256 ^ k))) = (v.extractLsb' (8 * k) (8 * j)).setWidth 32 := by
  apply BitVec.eq_of_toNat_eq
  rw [leNat_leBytes, BitVec.toNat_ofNat, BitVec.toNat_setWidth, BitVec.extractLsb'_toNat, Nat.shiftRight_eq_div_pow,
    Nat.pow_mul, Nat.pow_mul]

/-- A read that stays inside the bytes of a write before it gives those bits of the value written, zero-extended. -/
theorem Memory.read_of_write {m m' : Memory} {a k : Nat} {w u : Width} {v : Word} (h : m.wf = true)
    (hw : m.write a w v = some m') (hk : k + u.bytes ≤ w.bytes) :
    m'.read (a + k) u = some ((v.extractLsb' (8 * k) (8 * u.bytes)).setWidth 32) := by
  obtain ⟨hin, rfl⟩ := Memory.write_eq_some.mp hw
  refine Memory.read_eq_some.mpr ⟨by rw [Memory.setBytes_size]; omega, ?_⟩
  rw [Memory.bytesAt_setBytes_leBytes v h hin hk, leNat_leBytes_eq_extract]

theorem Memory.isSome_read (m : Memory) (a : Nat) (w : Width) : (m.read a w).isSome = true ↔ a + w.bytes ≤ m.size := by
  rw [← Option.ne_none_iff_isSome, ne_eq, Memory.read_eq_none, Nat.not_lt]

theorem Memory.isSome_write (m : Memory) (a : Nat) (w : Width) (v : Word) :
    (m.write a w v).isSome = true ↔ a + w.bytes ≤ m.size := by
  rw [← Option.ne_none_iff_isSome, ne_eq, Memory.write_eq_none, Nat.not_lt]

/-- Settles O10: a read of the width written gives the value's low bits, and for four bytes these are all of them. -/
theorem accessBoundsAndRoundTrip : Obligations.AccessBoundsAndRoundTrip := by
  refine ⟨fun m a w v => ⟨m.isSome_read a w, m.isSome_write a w v⟩, fun m m' a v h hw => ?_, fun m m' a v h hw => ?_⟩
  · have hall : (v.extractLsb' 0 32).setWidth 32 = v := by simp
    exact (Memory.read_of_write (k := 0) (u := .w4) h hw le_rfl).trans (congrArg some hall)
  · exact Memory.read_of_write (k := 0) (u := .w1) h hw le_rfl

/-- Settles O11: the narrower reads stay inside the four bytes written. -/
theorem narrowReadsOfWideWrite : Obligations.NarrowReadsOfWideWrite := by
  intro m m' a v h hw
  exact ⟨fun k hk => Memory.read_of_write (u := .w1) h hw hk, Memory.read_of_write (k := 0) (u := .w2) h hw (by decide)⟩

/-! ### The host's writes (R47). -/

theorem hostExec_write_outOfBounds {s : State} {sp : Space} {addr : Word} {length : Nat} (bytes : List Byte)
    (h : (s.hostMem sp).size < addr.toNat + length) : hostExec (.write sp addr bytes length) s = .next (s.answer .outOfBounds) := by
  rw [hostExec, if_neg (mt Memory.inBounds_iff.mp (Nat.not_le.mpr h))]

theorem hostExec_write_inBounds {s : State} {sp : Space} {addr : Word} {bytes : List Byte} {length : Nat}
    (h : addr.toNat + length ≤ (s.hostMem sp).size) (hlen : length ≤ bytes.length) :
    hostExec (.write sp addr bytes length) s =
      .next ((s.setHostMem sp ((s.hostMem sp).setBytes addr.toNat (bytes.take length))).answer .done) := by
  rw [hostExec, if_pos (Memory.inBounds_iff.mpr h), if_pos hlen]

theorem State.hostWrite_of_write {s : State} {sp : Space} {addr : Word} {w : Width} {v : Word} {m : Memory}
    (h : (s.hostMem sp).write addr.toNat w v = some m) :
    s.hostWrite sp addr w v = (s.setHostMem sp m).answer (.count w.bytes) := by
  rw [State.hostWrite, h]

/-- Settles O44: in bounds the block write stores the first `length` bytes given, and the typed writes answer their widths. -/
theorem hostBlockWrite : Obligations.HostBlockWrite := by
  intro s sp addr v bytes length h
  refine ⟨hostExec_write_outOfBounds bytes, fun hin hlen => ?_,
    fun m hm => congrArg Host.Outcome.next (State.hostWrite_of_write hm),
    fun m hm => congrArg Host.Outcome.next (State.hostWrite_of_write hm)⟩
  have htake : (bytes.take length).length = length := List.length_take_of_le hlen
  have hstored : addr.toNat + (bytes.take length).length ≤ (s.hostMem sp).size := by rwa [htake]
  refine ⟨_, hostExec_write_inBounds hin hlen, Memory.setBytes_size _ _ _, fun i _ hi => ?_, fun x hx => ?_, ?_⟩
  · rw [Memory.byte_setBytes_in _ h hstored i (by rwa [htake]), List.getElem_take]
  · exact Memory.byte_setBytes_out _ h hstored x (by rwa [htake])
  · rintro rfl
    rfl

/-! ### The memory a run fetches from (R52, R57). -/

theorem State.progMem_of_not_aliased {s : State} (h : s.aliased = false) : s.progMem = s.prog := by
  rw [State.progMem, h]
  rfl

theorem State.progMem_of_aliased {s : State} (h : s.aliased = true) : s.progMem = s.data := by
  rw [State.progMem, h]
  rfl

/-- A step of a run keeps the program memory the host holds, and the binding. -/
theorem step_keeps_prog {s t : State} (h : s.inRun) (ht : step s = .next t) : t.prog = s.prog ∧ t.aliased = s.aliased := by
  rcases step_next_of_inRun h ht with
    ⟨i, nextAddr, -, ⟨lit, r, -, rfl⟩ | ⟨lit, addr, -, -, rfl⟩ | ⟨-, rfl⟩⟩ | ⟨e, rfl⟩
  · exact ⟨rfl, rfl⟩
  · exact ⟨rfl, rfl⟩
  · exact ⟨rfl, rfl⟩
  · exact ⟨rfl, rfl⟩

/-- Settles O50: a run that is not aliased fetches from the program memory the host holds, which no step of a run writes. -/
theorem runNeverWritesProgram : Obligations.RunNeverWritesProgram := by
  intro s t hrun ht
  obtain ⟨hprog, haliased⟩ := step_keeps_prog hrun ht
  refine ⟨hprog, haliased, fun hnot => ?_⟩
  rw [State.progMem_of_not_aliased hnot, State.progMem_of_not_aliased (haliased.trans hnot), hprog]

/-- Settles O51: with ALIASED the run fetches from the data memory, which the store writes. -/
theorem aliasedStoreReachesFetch : Obligations.AliasedStoreReachesFetch := by
  intro lit addr s h haliased hin
  have hkept : ((s.advance 9).setData (s.data.setBytes addr.toNat (leBytes 4 lit.toNat))).aliased = true := haliased
  refine ⟨_, execStoreLitMem_inBounds hin, ?_⟩
  rw [State.progMem_of_aliased haliased, State.progMem_of_aliased hkept]
  exact ⟨fun k hk => Memory.byte_setBytes_leBytes lit h hin hk, fun x hx => Memory.byte_setBytes_leBytes_out lit h hin hx⟩

end Sys2Proof.Machine
end

section
/-! PROOFS. The family of `30_encoding.md`: what each operand field reads from a byte string, what decodes to each instruction, that
encoder and decoder undo each other, and that a step of a run answers and keeps the parameters. -/

namespace Sys2Proof

/-! ### The dispatch table (R73). -/

/-- The opcode byte of an operation, as the dispatch table lists it. -/
def Op.opcode (p : Params) : Op → Byte
  | .movLitReg => p.opcMovLitReg
  | .storeLitMem => p.opcStoreLitMem
  | .ret => p.opcReturn

theorem opcode_of_dispatch {p : Params} {b : Byte} {op : Op} (h : dispatch p b = some op) : b = op.opcode p := by
  rw [dispatch_eq] at h
  split at h
  · next hb => cases h; exact hb
  split at h
  · next hb => cases h; exact hb
  split at h
  · next hb => cases h; exact hb
  · cases h

/-- Distinct opcodes (R6) find their own rows. -/
theorem dispatch_opcode {p : Params} (hp : p.wf) (op : Op) : dispatch p (op.opcode p) = some op := by
  have hdistinct : p.opcodes.Nodup := hp.1
  simp only [Params.opcodes, List.nodup_cons, List.mem_cons, List.not_mem_nil, not_or] at hdistinct
  obtain ⟨⟨hms, hmr, -⟩, ⟨hsr, -⟩, -⟩ := hdistinct
  rw [dispatch_eq]
  cases op with
  | movLitReg => exact if_pos rfl
  | storeLitMem => exact (if_neg (Ne.symm hms)).trans (if_pos rfl)
  | ret => exact (if_neg (Ne.symm hmr)).trans ((if_neg (Ne.symm hsr)).trans (if_pos rfl))

/-! ### Register ids (R79). -/

theorem decodeReg_eq (p : Params) (b : Byte) : decodeReg p b =
    if b = p.regIdR0 then some .r0 else if b = p.regIdR1 then some .r1 else if b = p.regIdR2 then some .r2
    else if b = p.regIdR3 then some .r3 else if p.regIdIp = some b then some .ip else none := by
  have find_cons : ∀ (r : Reg) (rs : List Reg), (r :: rs).find? (fun q => regId p q == some b) =
      if regId p r = some b then some r else rs.find? fun q => regId p q == some b := fun r rs => by
    by_cases h : regId p r = some b <;> simp [h]
  rw [decodeReg, find_cons, find_cons, find_cons, find_cons, find_cons, List.find?_nil]
  refine if_congr ?_ rfl (if_congr ?_ rfl (if_congr ?_ rfl (if_congr ?_ rfl (if_congr Iff.rfl rfl rfl))))
  all_goals exact Option.some_inj.trans eq_comm

/-- Distinct register ids (R6) name their own registers: the comparisons before a register's own fail. -/
theorem decodeReg_of_regId {p : Params} (hp : p.wf) {r : Reg} {b : Byte} (h : regId p r = some b) : decodeReg p b = some r := by
  have hdistinct : p.regIds.Nodup := hp.2
  rw [decodeReg_eq]
  cases r with
  | ip =>
    have hip : p.regIdIp = some b := h
    grind [Params.regIds]
  | r0 | r1 | r2 | r3 =>
    cases h
    grind [Params.regIds]

/-! ### An operand field of a byte string (R48, R75). -/

/-- A 32-bit field is there exactly when the bytes begin with those of its value. -/
theorem takeField_w4_eq_some {v : Word} {bs rest : List Byte} :
    takeField .w4 bs = some (v, rest) ↔ bs = leBytes 4 v.toNat ++ rest := by
  constructor
  · intro h
    rw [takeField, Option.ite_none_right_eq_some, Option.some.injEq, Prod.mk.injEq] at h
    obtain ⟨hlen, rfl, rfl⟩ := h
    rw [Width.bytes] at *
    have htake : (bs.take 4).length = 4 := List.length_take_of_le hlen
    have hlt := leNat_lt (bs.take 4)
    have hbytes := leBytes_leNat (bs.take 4)
    rw [htake] at hlt hbytes
    rw [BitVec.toNat_ofNat, Nat.mod_eq_of_lt (b := 2 ^ 32) hlt, hbytes, List.take_append_drop]
  · rintro rfl
    have hlen : (leBytes 4 v.toNat).length = 4 := leBytes_length 4 _
    simp only [takeField, Width.bytes, List.length_append, hlen, List.take_left' hlen, List.drop_left' hlen,
      leNat_leBytes_word, Nat.le_add_right, if_true]

/-- An 8-bit field is the next byte. -/
theorem takeField_w1_eq_some {v : Word} {bs rest : List Byte} :
    takeField .w1 bs = some (v, rest) ↔ ∃ b : Byte, v = b.setWidth 32 ∧ bs = b :: rest := by
  cases bs with
  | nil => simp [takeField, Width.bytes]
  | cons b bs =>
    have hv : BitVec.ofNat 32 (leNat [b]) = b.setWidth 32 := by
      apply BitVec.eq_of_toNat_eq
      simp [leNat]
    simp [takeField, Width.bytes, hv, eq_comm]

/-- Fields are read when the first is and the others are after it. -/
theorem readFields_cons_eq_ok {σ : Type} {read : FieldReader σ} {f : FieldRole} {fs : List FieldRole} {o o' : Operands} {src rest : σ} :
    readFields read (f :: fs) o src = .ok o' rest ↔
      ∃ v src', read f.width src = some (v, src') ∧ readFields read fs (o.set f v) src' = .ok o' rest := by
  rw [readFields]
  cases read f.width src with
  | none => simp
  | some x =>
    obtain ⟨v, src'⟩ := x
    simp

/-! ### What decodes to an instruction (R81). -/

theorem decode_eq_ok_iff {p : Params} {bytes rest : List Byte} {i : Instr} :
    decode p bytes = .ok i rest ↔ ∃ b bs o, bytes = b :: bs ∧ dispatch p b = some i.op ∧
      readFields takeField i.op.fields {} bs = .ok o rest ∧ i.op.assemble p o rest = .ok i rest := by
  constructor
  · intro h
    cases bytes with
    | nil => cases h
    | cons b bs =>
      rw [decode_cons] at h
      cases hop : dispatch p b with
      | none => simp [hop] at h
      | some op =>
        simp only [hop] at h
        cases hf : readFields takeField op.fields {} bs with
        | short src w =>
          rw [hf] at h
          cases h
        | ok o rest' =>
          rw [hf] at h
          obtain ⟨ha, rfl⟩ := Machine.assemble_ok h rest
          have hrest : rest' = rest := by
            cases h.symm.trans (Machine.assemble_ok h rest').1
            rfl
          exact ⟨b, bs, o, rfl, hop, hrest ▸ hf, ha⟩
  · rintro ⟨b, bs, o, rfl, hop, hf, ha⟩
    rw [decode_cons, hop]
    simp only [hf, ha]

theorem decode_eq_movLitReg {p : Params} {bytes rest : List Byte} {lit : Word} {r : Reg} :
    decode p bytes = .ok (.movLitReg lit r) rest ↔ ∃ b id, dispatch p b = some .movLitReg ∧ decodeReg p id = some r ∧
      bytes = b :: (leBytes 4 lit.toNat ++ id :: rest) := by
  simp only [decode_eq_ok_iff, Instr.op, Op.fields, readFields_cons_eq_ok, FieldRole.width, takeField_w4_eq_some,
    takeField_w1_eq_some, readFields_nil, Op.assemble, Operands.set]
  constructor
  · rintro ⟨b, bs, o, rfl, hop, ⟨v, bs', rfl, w, rest', ⟨id, rfl, rfl⟩, hok⟩, ha⟩
    cases hok
    have narrow : (id.setWidth 32).setWidth 8 = id := by simp
    rw [narrow] at ha
    cases hreg : decodeReg p id with
    | none => simp [hreg] at ha
    | some q =>
      simp only [hreg] at ha
      cases ha
      exact ⟨b, id, hop, hreg, rfl⟩
  · rintro ⟨b, id, hop, hreg, rfl⟩
    exact ⟨b, _, ⟨lit, 0, id⟩, rfl, hop, ⟨lit, _, rfl, _, _, ⟨id, rfl, rfl⟩, by simp⟩, by simp [hreg]⟩

theorem decode_eq_storeLitMem {p : Params} {bytes rest : List Byte} {lit addr : Word} :
    decode p bytes = .ok (.storeLitMem lit addr) rest ↔ ∃ b, dispatch p b = some .storeLitMem ∧
      bytes = b :: (leBytes 4 lit.toNat ++ (leBytes 4 addr.toNat ++ rest)) := by
  simp only [decode_eq_ok_iff, Instr.op, Op.fields, readFields_cons_eq_ok, FieldRole.width, takeField_w4_eq_some,
    readFields_nil, Op.assemble, Operands.set]
  constructor
  · rintro ⟨b, bs, o, rfl, hop, ⟨v, bs', rfl, w, rest', rfl, hok⟩, ha⟩
    cases hok
    cases ha
    exact ⟨b, hop, rfl⟩
  · rintro ⟨b, hop, rfl⟩
    exact ⟨b, _, ⟨lit, addr, 0⟩, rfl, hop, ⟨lit, _, rfl, addr, _, rfl, rfl⟩, rfl⟩

theorem decode_eq_ret {p : Params} {bytes rest : List Byte} :
    decode p bytes = .ok .ret rest ↔ ∃ b, dispatch p b = some .ret ∧ bytes = b :: rest := by
  simp only [decode_eq_ok_iff, Instr.op, Op.fields, readFields_nil, Op.assemble]
  constructor
  · rintro ⟨b, bs, o, rfl, hop, hok, -⟩
    cases hok
    exact ⟨b, hop, rfl⟩
  · rintro ⟨b, hop, rfl⟩
    exact ⟨b, rest, {}, rfl, hop, rfl, trivial⟩

/-- IllegalInstruction is decided by the first byte alone (R77). -/
theorem decode_cons_eq_illegalInstruction {p : Params} {b : Byte} {bs : List Byte} :
    decode p (b :: bs) = .illegalInstruction b ↔ dispatch p b = none := by
  rw [decode_cons]
  cases dispatch p b with
  | none => simp
  | some op =>
    simp only [reduceCtorEq, iff_false]
    cases readFields takeField op.fields {} bs with
    | short src w => exact nofun
    | ok o rest =>
      cases op with
      | movLitReg =>
        simp only [Op.assemble]
        split <;> exact nofun
      | storeLitMem => exact nofun
      | ret => exact nofun

/-! ### The encoder (R82). -/

theorem encode_movLitReg_eq_some {p : Params} {lit : Word} {r : Reg} {bs : List Byte} :
    encode p (.movLitReg lit r) = some bs ↔ ∃ id, regId p r = some id ∧ p.opcMovLitReg :: (leBytes 4 lit.toNat ++ [id]) = bs := by
  rw [encode, Option.map_eq_some_iff]

/-- The instructions that have an encoding are the well-formed ones. -/
theorem encode_isSome (p : Params) (i : Instr) : (encode p i).isSome = i.wf p := by
  cases i with
  | movLitReg lit r => rw [encode, Option.isSome_map, regId_isSome]; rfl
  | storeLitMem lit addr => rfl
  | ret => rfl

theorem length_of_encode {p : Params} {i : Instr} {bs : List Byte} (h : encode p i = some bs) : bs.length = i.length := by
  cases i with
  | movLitReg lit r => exact Laws.EncodedLength.movLitReg lit r p bs h
  | storeLitMem lit addr => exact Laws.EncodedLength.storeLitMem lit addr p bs h
  | ret => exact Laws.EncodedLength.ret p bs h

/-- The four bytes of a word, as R82 writes them out. -/
theorem leBytes_word (v : Word) :
    leBytes 4 v.toNat = [v.extractLsb' 0 8, v.extractLsb' 8 8, v.extractLsb' 16 8, v.extractLsb' 24 8] := by
  refine List.ext_getElem (leBytes_length 4 _) fun k hk _ => ?_
  rw [leBytes_getElem, ofNat_div_eq_extract]
  rw [leBytes_length] at hk
  interval_cases k <;> rfl

/-! ### The round trips (R82). -/

/-- With distinct parameters an encoding decodes to its instruction, whatever follows. -/
theorem decode_of_encode {p : Params} (hp : p.wf) {i : Instr} {bs : List Byte} (h : encode p i = some bs) (rest : List Byte) :
    decode p (bs ++ rest) = .ok i rest := by
  cases i with
  | movLitReg lit r =>
    obtain ⟨id, hid, rfl⟩ := encode_movLitReg_eq_some.mp h
    exact decode_eq_movLitReg.mpr ⟨_, id, dispatch_opcode hp .movLitReg, decodeReg_of_regId hp hid, by simp [Op.opcode]⟩
  | storeLitMem lit addr =>
    cases h
    exact decode_eq_storeLitMem.mpr ⟨_, dispatch_opcode hp .storeLitMem, by simp [Op.opcode]⟩
  | ret =>
    cases h
    exact decode_eq_ret.mpr ⟨_, dispatch_opcode hp .ret, rfl⟩

/-- What decodes begins with the instruction's encoding. -/
theorem encode_of_decode {p : Params} {bytes rest : List Byte} {i : Instr} (h : decode p bytes = .ok i rest) :
    ∃ bs, encode p i = some bs ∧ bytes = bs ++ rest := by
  cases i with
  | movLitReg lit r =>
    obtain ⟨b, id, hop, hreg, rfl⟩ := decode_eq_movLitReg.mp h
    cases opcode_of_dispatch hop
    exact ⟨_, encode_movLitReg_eq_some.mpr ⟨id, regId_of_decodeReg hreg, rfl⟩, by simp [Op.opcode]⟩
  | storeLitMem lit addr =>
    obtain ⟨b, hop, rfl⟩ := decode_eq_storeLitMem.mp h
    cases opcode_of_dispatch hop
    exact ⟨_, rfl, by simp [Op.opcode]⟩
  | ret =>
    obtain ⟨b, hop, rfl⟩ := decode_eq_ret.mp h
    cases opcode_of_dispatch hop
    exact ⟨_, rfl, rfl⟩

/-- Settles O1: a well-formed instruction has an encoding, which decodes to it. -/
theorem decodeInvertsEncode : Obligations.DecodeInvertsEncode := by
  intro p hp i hi
  obtain ⟨bs, hbs⟩ := Option.isSome_iff_exists.mp ((encode_isSome p i).trans hi)
  exact ⟨bs, hbs, decode_of_encode hp hbs⟩

/-- Settles O3: what decodes begins with an encoding, and only well-formed instructions have one. -/
theorem encodeInvertsDecode : Obligations.EncodeInvertsDecode := by
  intro p bytes rest i h
  obtain ⟨bs, hbs, hbytes⟩ := encode_of_decode h
  exact ⟨(encode_isSome p i).symm.trans (Option.isSome_of_mem hbs), bs, hbs, hbytes⟩

/-- Settles O2: the bytes as R82 lists them, and the sequencer fetches what the decoder reads from those bytes. -/
theorem encListsBytesAndDecodesInMemory : Obligations.EncListsBytesAndDecodesInMemory := by
  intro p hp
  refine ⟨fun lit r b hb => ?_, fun lit addr => ?_, rfl, fun i bs hbs s hparams hsize hin hbytes => ?_⟩
  · rw [encode, hb, leBytes_word]
    rfl
  · rw [encode, leBytes_word, leBytes_word]
    rfl
  · subst hparams
    have hdecode : decode s.params (s.progMem.bytesAt s.regs.ip.toNat bs.length) = .ok i [] := by
      rw [hbytes]
      simpa using decode_of_encode hp hbs []
    rw [length_of_encode hbs] at hin hdecode ⊢
    exact Machine.State.fetchInstr_of_decode hsize hin hdecode

/-! ### The length (R71). -/

theorem Op.length_mem (op : Op) : op.length ∈ [1, 6, 9] := by
  cases op <;> decide

/-- The first byte of what decodes is dispatched to the instruction's operation. -/
theorem dispatch_of_decode {p : Params} {b : Byte} {bs rest : List Byte} {i : Instr} (h : decode p (b :: bs) = .ok i rest) :
    dispatch p b = some i.op := by
  obtain ⟨b', bs', o, hbytes, hop, -⟩ := decode_eq_ok_iff.mp h
  cases hbytes
  exact hop

/-- Settles O4: the first byte gives the operation, the operation the length, and the bytes consumed are the encoding. -/
theorem lengthFollowsFromOpcodeByte : Obligations.LengthFollowsFromOpcodeByte := by
  intro p b x y rx ry i j hi hj
  have hop : i.op = j.op := Option.some.inj ((dispatch_of_decode hi).symm.trans (dispatch_of_decode hj))
  obtain ⟨bs, hbs, hbytes⟩ := encode_of_decode hi
  refine ⟨congrArg Op.length hop, i.op.length_mem, ?_⟩
  rw [hbytes, List.length_append, length_of_encode hbs]

/-! ### The default parameters (R77, R79, R83). -/

theorem Params.default_wf : Params.default.wf := by decide

/-- The bytes 0x01, 0x02 and 0x03 alone have a row at the default opcodes. -/
theorem dispatch_default_eq_none {b : Byte} : dispatch Params.default b = none ↔ b.toNat = 0 ∨ 4 ≤ b.toNat := by
  rw [dispatch_eq]
  simp only [Params.default, ← BitVec.toNat_inj]
  grind

/-- Settles O5: decodeReg is the chain of comparisons, and at the default ids a byte from 4 on passes all of them. -/
theorem decodeRegFollowsOrder : Obligations.DecodeRegFollowsOrder := by
  refine ⟨decodeReg_eq, rfl, rfl, rfl, rfl, fun b hb => ?_⟩
  have hne : ∀ c : Byte, c.toNat < 4 → b ≠ c := by
    rintro c hc rfl
    omega
  rw [decodeReg_eq]
  simp [Params.default, hne]

/-- Settles O6: the illegal first bytes are those the table has no row for. -/
theorem defaultIllegalOpcodes : Obligations.DefaultIllegalOpcodes := fun _ _ =>
  decode_cons_eq_illegalInstruction.trans dispatch_default_eq_none

/-- Settles O7: the encodings by evaluation, and the other direction by the round trip. -/
theorem workedEncodings : Obligations.WorkedEncodings := by
  have hmov : encode Params.default (.movLitReg 0x12121212 .r1) = some [0x01, 0x12, 0x12, 0x12, 0x12, 0x01] := by decide
  have hstore : encode Params.default (.storeLitMem 0xffffffff 0x1234) =
      some [0x02, 0xFF, 0xFF, 0xFF, 0xFF, 0x34, 0x12, 0x00, 0x00] := by decide
  have hret : encode Params.default .ret = some [0x03] := rfl
  exact ⟨hmov, hstore, hret, decode_of_encode Params.default_wf hmov [], decode_of_encode Params.default_wf hstore [],
    decode_of_encode Params.default_wf hret []⟩

end Sys2Proof

namespace Sys2Proof.Machine

/-! ### A step of a run answers (R81, R111). -/

/-- An instruction's effect is a next state that keeps RUN_STATE or is HALTED. -/
theorem exec_next (i : Instr) (s : State) : ∃ t, exec i s = .next t ∧ (t.runState = s.runState ∨ t.runState = .halted) := by
  rcases exec_cases i s with ⟨lit, r, -, h⟩ | ⟨lit, addr, -, -, h⟩ | ⟨lit, addr, -, -, h⟩ | ⟨-, h⟩
  · exact ⟨_, h, .inl rfl⟩
  · exact ⟨_, h, .inl rfl⟩
  · exact ⟨_, h, .inr rfl⟩
  · exact ⟨_, h, .inr rfl⟩

/-- Settles O16: a step of a run is an instruction's effect in RUNNING, or a raise, which halts. -/
theorem runningStepAlwaysAnswers : Obligations.RunningStepAlwaysAnswers := by
  intro s hrun
  rw [step_running hrun]
  rcases stepRun_cases s with ⟨i, nextAddr, -, h⟩ | ⟨e, h⟩
  · rw [h]
    exact exec_next i s.enterRunning
  · exact ⟨_, h, .inr rfl⟩

/-! ### The parameters (R72). -/

theorem step_inRun_params {s t : State} (h : s.inRun) (ht : step s = .next t) : t.params = s.params := by
  rcases step_next_of_inRun h ht with
    ⟨i, nextAddr, -, ⟨lit, r, -, rfl⟩ | ⟨lit, addr, -, -, rfl⟩ | ⟨-, rfl⟩⟩ | ⟨e, rfl⟩
  · rfl
  · rfl
  · rfl
  · rfl

theorem hostExec_params {op : HostOp} {s t : State} (h : hostExec op s = .next t) : t.params = s.params := by
  by_cases hc : ∃ size init, op = .construct size init
  · obtain ⟨size, init, rfl⟩ := hc
    obtain ⟨-, rfl⟩ := hostExec_construct h
    rfl
  · exact (hostExec_frame h fun size init hop => hc ⟨size, init, hop⟩).1

/-- Settles O49: neither the sequencer nor a transaction of the host writes the parameters. -/
theorem paramsNeverChange : Obligations.ParamsNeverChange := by
  intro s t ht
  rcases s.inRun_or_betweenRuns with h | h
  · exact step_inRun_params h ht
  · obtain ⟨op, ops, -, hop⟩ := step_next_of_betweenRuns h ht
    exact hostExec_params (s := s.withPending ops) hop

end Sys2Proof.Machine
end

section
/-! PROOFS. The family of `40_core_loop.md`: a step of a run by what it fetches, R108's text as that step, the transitions of RUN_STATE,
and how long a run can last. -/

namespace Sys2Proof.Machine

/-! ### A step of a run by what it fetches (R102 to R104). -/

section
variable {s : State}

theorem step_of_fetch_ok {i : Instr} {nextAddr : Nat} (h : s.inRun) (hf : s.fetchInstr = .ok i nextAddr) :
    step s = exec i s.enterRunning := by
  rw [step_running h, stepRun, hf]

theorem step_of_fetch_outOfBounds {a : Nat} {w : Width} (h : s.inRun) (hf : s.fetchInstr = .outOfBounds a w) :
    step s = .next (s.enterRunning.raise (.outOfBounds .prog (BitVec.ofNat 32 a) w)) := by
  rw [step_running h, stepRun, hf]

theorem step_of_fetch_illegalInstruction {b : Byte} (h : s.inRun) (hf : s.fetchInstr = .illegalInstruction b) :
    step s = .next (s.enterRunning.raise (.illegalInstruction b)) := by
  rw [step_running h, stepRun, hf]

theorem step_of_fetch_invalidRegister {b : Byte} (h : s.inRun) (hf : s.fetchInstr = .invalidRegister b) :
    step s = .next (s.enterRunning.raise (.invalidRegister b)) := by
  rw [step_running h, stepRun, hf]

end

/-- Settles O13: the bytes at IP decode to what the sequencer fetches, and the step is told by the fetch. -/
theorem stepRunsDecodedInstruction : Obligations.StepRunsDecodedInstruction := by
  intro s hrun
  refine ⟨fun n i rest hsize hin hdecode => ?_, fun i nextAddr hf => ?_, fun a w hf => ?_, fun b hf => ?_, fun b hf => ?_⟩
  · exact step_of_fetch_ok hrun (State.fetchInstr_of_decode hsize hin hdecode)
  · exact ⟨step_of_fetch_ok hrun hf, State.fetchInstr_next hf⟩
  · exact step_of_fetch_outOfBounds hrun hf
  · exact step_of_fetch_illegalInstruction hrun hf
  · exact step_of_fetch_invalidRegister hrun hf

/-! ### The register id of a MOV_LIT_REG, validated after its fields are read (R103). -/

section
variable {σ : Type} {p : Params} {o : Operands}

theorem assemble_movLitReg_of_none (h : decodeReg p o.regByte = none) (rest : σ) :
    Op.movLitReg.assemble p o rest = .invalidRegister o.regByte := by
  rw [Op.assemble, h]

theorem assemble_movLitReg_of_some {r : Reg} (h : decodeReg p o.regByte = some r) (rest : σ) :
    Op.movLitReg.assemble p o rest = .ok (.movLitReg o.lit r) rest := by
  rw [Op.assemble, h]

end

/-! ### What is fetched at an opcode byte, with the fields at `f 1` and `f 5`. -/

section
variable {s : State} {f : Nat → Nat}

theorem State.fetchAt_movLitReg (h : ¬ s.progMem.size < s.regs.ip.toNat + 1)
    (hop : dispatch s.params (s.progMem.byte s.regs.ip.toNat) = some .movLitReg) :
    s.fetchAt f =
      if s.progMem.size < f 1 + 4 then .outOfBounds (s.regs.ip.toNat + 1) .w4
      else if s.progMem.size < f 5 + 1 then .outOfBounds (s.regs.ip.toNat + 5) .w1
      else Op.movLitReg.assemble s.params { lit := s.progMem.word (f 1), regByte := s.progMem.byte (f 5) } (s.regs.ip.toNat + 6) := by
  rw [State.fetchAt, if_neg h, hop]
  simp only [Op.assemble]
  cases decodeReg s.params (s.progMem.byte (f 5)) <;> rfl

theorem State.fetchAt_storeLitMem (h : ¬ s.progMem.size < s.regs.ip.toNat + 1)
    (hop : dispatch s.params (s.progMem.byte s.regs.ip.toNat) = some .storeLitMem) :
    s.fetchAt f =
      if s.progMem.size < f 1 + 4 then .outOfBounds (s.regs.ip.toNat + 1) .w4
      else if s.progMem.size < f 5 + 4 then .outOfBounds (s.regs.ip.toNat + 5) .w4
      else .ok (.storeLitMem (s.progMem.word (f 1)) (s.progMem.word (f 5))) (s.regs.ip.toNat + 9) := by
  rw [State.fetchAt, if_neg h, hop]

end

/-! ### R108 as the rule writes it. -/

@[simp] theorem State.advance_progMem (s : State) (k : Nat) : (s.advance k).progMem = s.progMem := rfl

@[simp] theorem State.enterRunning_progMem (s : State) : s.enterRunning.progMem = s.progMem := rfl

/-- R109: the pieces in which R108 advances IP add up. -/
theorem State.advance_advance (s : State) (j k : Nat) : (s.advance j).advance k = s.advance (j + k) := by
  simp only [State.advance, BitVec.ofNat_add, BitVec.add_assoc]

/-- A read of one byte in R108, before what the rule does with it. -/
theorem State.readField_w1_bind {α : Type} (s : State) (next : Word × State → Except FatalError α) :
    (s.readField .w1 >>= next) =
      if s.progMem.size < s.regs.ip.toNat + 1 then .error (.outOfBounds .prog s.regs.ip .w1)
      else next ((s.progMem.byte s.regs.ip.toNat).setWidth 32, s.advance 1) := by
  rw [State.readField, Memory.read_w1]
  by_cases h : s.progMem.size < s.regs.ip.toNat + 1
  · rw [if_pos h, if_pos h]
    rfl
  · rw [if_neg h, if_neg h]
    rfl

/-- A read of a word in R108, before what the rule does with it. -/
theorem State.readField_w4_bind {α : Type} (s : State) (next : Word × State → Except FatalError α) :
    (s.readField .w4 >>= next) =
      if s.progMem.size < s.regs.ip.toNat + 4 then .error (.outOfBounds .prog s.regs.ip .w4)
      else next (s.progMem.word s.regs.ip.toNat, s.advance 4) := by
  rw [State.readField, Memory.read_w4]
  by_cases h : s.progMem.size < s.regs.ip.toNat + 4
  · rw [if_pos h, if_pos h]
    rfl
  · rw [if_neg h, if_neg h]
    rfl

/-- The address after the first two reads of R108. -/
theorem ip_add_one_add_four (ip : Word) : ip + BitVec.ofNat 32 1 + BitVec.ofNat 32 4 = ip + BitVec.ofNat 32 5 :=
  BitVec.add_assoc ip 1 4

/-- Settles O14: with its reads gathered, R108 makes the comparisons of the fetch at IP, IP + 1 and IP + 5, in the same order. -/
theorem stepIsReferenceStep : Obligations.StepIsReferenceStep := by
  intro s hrun hat
  have narrow : ∀ b : Byte, (b.setWidth 32).setWidth 8 = b := fun b => by simp
  rw [step_running hrun, stepRun, State.fetchInstr_of_fieldsAtIp hat, State.fetchAt, dispatch_eq, referenceStep, referenceBody]
  simp only [State.readField_w1_bind, State.readField_w4_bind, State.advance_advance, narrow, State.advance_progMem,
    State.enterRunning_progMem, State.advance_regs, State.enterRunning_regs, State.advance_params, State.enterRunning_params,
    State.advance_data, State.enterRunning_data, ip_add_one_add_four]
  by_cases h1 : s.progMem.size < s.regs.ip.toNat + 1
  · simp only [h1, ↓reduceIte, BitVec.ofNat_toNat, BitVec.setWidth_eq]
  simp only [h1, ↓reduceIte]
  by_cases hmov : s.progMem.byte s.regs.ip.toNat = s.params.opcMovLitReg
  · simp only [hmov, ↓reduceIte]
    by_cases h5 : s.progMem.size < (s.regs.ip + BitVec.ofNat 32 1).toNat + 4
    · simp only [h5, ↓reduceIte, State.ofNat_ip_add]
    by_cases h6 : s.progMem.size < (s.regs.ip + BitVec.ofNat 32 5).toNat + 1
    · simp only [h5, h6, ↓reduceIte, State.ofNat_ip_add]
    simp only [h5, h6, ↓reduceIte]
    cases decodeReg s.params (s.progMem.byte (s.regs.ip + BitVec.ofNat 32 5).toNat) <;> rfl
  simp only [hmov, ↓reduceIte]
  by_cases hstore : s.progMem.byte s.regs.ip.toNat = s.params.opcStoreLitMem
  · simp only [hstore, ↓reduceIte]
    by_cases h5 : s.progMem.size < (s.regs.ip + BitVec.ofNat 32 1).toNat + 4
    · simp only [h5, ↓reduceIte, State.ofNat_ip_add]
    by_cases h9 : s.progMem.size < (s.regs.ip + BitVec.ofNat 32 5).toNat + 4
    · simp only [h5, h9, ↓reduceIte, State.ofNat_ip_add]
    simp only [h5, h9, ↓reduceIte, exec, execStoreLitMem, storeAddress, State.enterRunning_data]
    cases s.data.write _ _ _ <;> rfl
  simp only [hstore, ↓reduceIte]
  by_cases hret : s.progMem.byte s.regs.ip.toNat = s.params.opcReturn
  · simp only [hret, ↓reduceIte]
    rfl
  · simp only [hret, ↓reduceIte]

/-! ### The fields at a program memory of 2^32 bytes. -/

/-- Settles O55: the opcode byte is in bounds, and the fetch of a block whose fields wrap reads them at IP + 1 and IP + 5. -/
theorem fieldsFollowWrappedIp : Obligations.FieldsFollowWrappedIp := by
  intro s hrun hp hwrap hsize
  have hfetch := State.fetchInstr_of_fieldsAtIp (s := s) (.inl hwrap)
  have hbyte : ∀ a : Word, ¬ s.progMem.size < a.toNat + 1 := by
    intro a
    have := a.isLt
    omega
  have hmov := fun h : s.progMem.byte s.regs.ip.toNat = s.params.opcMovLitReg =>
    hfetch.trans (State.fetchAt_movLitReg (hbyte _) ((congrArg _ h).trans (dispatch_opcode hp .movLitReg)))
  have hstore := fun h : s.progMem.byte s.regs.ip.toNat = s.params.opcStoreLitMem =>
    hfetch.trans (State.fetchAt_storeLitMem (hbyte _) ((congrArg _ h).trans (dispatch_opcode hp .storeLitMem)))
  have hshort : ∀ k w, s.fetchInstr = .outOfBounds (s.regs.ip.toNat + k) w →
      step s = .next (s.enterRunning.raise (.outOfBounds .prog (s.regs.ip + BitVec.ofNat 32 k) w)) := fun k w h => by
    rw [step_of_fetch_outOfBounds hrun h, State.ofNat_ip_add]
  rw [← hsize]
  refine ⟨fun hop h5 => hshort 1 .w4 ?_, fun hop h5 => ?_, fun hop h5 => ⟨fun h9 => hshort 5 .w4 ?_, fun h9 => ?_⟩⟩
  · rcases hop with hop | hop
    · exact (hmov hop).trans (if_pos h5)
    · exact (hstore hop).trans (if_pos h5)
  · have hid := (hmov hop).trans ((if_neg (Nat.not_lt.mpr h5)).trans (if_neg (hbyte _)))
    exact ⟨fun hreg => step_of_fetch_invalidRegister hrun (hid.trans (assemble_movLitReg_of_none hreg _)),
      fun r hreg => step_of_fetch_ok hrun (hid.trans (assemble_movLitReg_of_some hreg _))⟩
  · exact (hstore hop).trans ((if_neg (Nat.not_lt.mpr h5)).trans (if_pos h9))
  · exact step_of_fetch_ok hrun ((hstore hop).trans ((if_neg (Nat.not_lt.mpr h5)).trans (if_neg (Nat.not_lt.mpr h9))))

/-! ### The transitions of RUN_STATE (R110). -/

/-- A step of a run leaves the block running or halted (O16). -/
theorem runState_of_step_inRun {s t : State} (h : s.inRun) (ht : step s = .next t) : t.runState = .running ∨ t.runState = .halted := by
  obtain ⟨u, hu, hnext⟩ := runningStepAlwaysAnswers s h
  cases hu.symm.trans ht
  exact hnext

/-- A transaction of the host leaves RUN_STATE alone, unless it constructs a block or starts a run. -/
theorem runState_of_hostExec {op : HostOp} {s t : State} (h : hostExec op s = .next t) :
    t.runState = s.runState ∨ (t.runState = .ready ∧ ∃ al st, op = .run al st) ∨
      (t.runState = .idle ∧ ∃ size init, op = .construct size init) := by
  by_cases hc : ∃ size init, op = .construct size init
  · obtain ⟨size, init, rfl⟩ := hc
    obtain ⟨-, rfl⟩ := hostExec_construct h
    exact .inr (.inr ⟨rfl, size, init, rfl⟩)
  · obtain ⟨-, -, -, hkept | ⟨al, st, hop, hready⟩⟩ := hostExec_frame h fun size init hop => hc ⟨size, init, hop⟩
    · exact .inl hkept
    · exact .inr (.inl ⟨hready, al, st, hop⟩)

/-- Settles O18: a step of a run ends in RUNNING or HALTED, and between runs only `run` and construct move RUN_STATE. -/
theorem runStateTransitions : Obligations.RunStateTransitions := by
  intro s t ht
  rcases s.inRun_or_betweenRuns with hrun | hbetween
  · have hnext := runState_of_step_inRun hrun ht
    rcases hrun with hs | hs <;> rcases hnext with h | h <;> simp [hs, h, RunState.mayStep]
  · obtain ⟨op, ops, hp, hop⟩ := step_next_of_betweenRuns hbetween ht
    rcases runState_of_hostExec hop with h | ⟨h, al, st, rfl⟩ | ⟨h, size, init, rfl⟩
    · rcases hbetween with hs | hs <;> simp [hs, h, RunState.mayStep]
    · rcases hbetween with hs | hs <;> simp [hs, h, hp, RunState.mayStep]
    · rcases hbetween with hs | hs <;> simp [hs, h, hp, RunState.mayStep]

/-! ### The outcome of a run (R113). -/

@[simp] theorem State.outcome_halt (s : State) (v : Word) : (s.halt v).outcome = some (.runResult v) := rfl

@[simp] theorem State.outcome_raise (s : State) (e : FatalError) : (s.raise e).outcome = some (.runFault e s.regs.ip) := by
  simp [State.outcome]

/-- Settles O21: a run halts by RETURN or by a raise, and each replies what it records. -/
theorem runReturnsRecordedOutcome : Obligations.RunReturnsRecordedOutcome := by
  intro s t hrun ht hhalted
  rcases step_next_of_inRun hrun ht with
    ⟨i, nextAddr, -, ⟨lit, r, -, rfl⟩ | ⟨lit, addr, -, -, rfl⟩ | ⟨-, rfl⟩⟩ | ⟨e, rfl⟩
  · cases hhalted
  · cases hhalted
  · rw [State.outcome_halt]
    exact ⟨rfl, rfl⟩
  · rw [State.outcome_raise]
    exact ⟨rfl, rfl⟩

/-! ### Between runs. -/

/-- Settles O39: the pending run is made, and it binds, sets IP and enters READY (R101). -/
theorem runStartsAtStartAddress : Obligations.RunStartsAtStartAddress := by
  intro s al st ops hbetween hpending
  have hstep : step s = .next ((s.withPending ops).startRun al st) := by
    rw [step_between hbetween, hostTurn, hpending]
    rfl
  exact ⟨_, hstep, rfl, rfl, rfl, rfl, fun q hq => RegFile.get_withIp s.regs st hq, rfl, rfl, rfl, rfl, rfl, rfl⟩

/-- Settles O42: the host's turn has nothing to make. -/
theorem waitsForHostBetweenRuns : Obligations.WaitsForHostBetweenRuns := by
  intro s hbetween hpending
  rw [step_between hbetween, hostTurn, hpending]

/-! ### How long a run can last (R112). -/

/-- Only a nameable register is decoded. -/
theorem nameable_of_decodeReg {p : Params} {b : Byte} {r : Reg} (h : decodeReg p b = some r) : r.nameable p = true := by
  rw [← regId_isSome, regId_of_decodeReg h]
  rfl

/-- An instruction that is fetched names a nameable register, and its last field is in bounds. -/
theorem State.fetchAt_eq_ok {s : State} {f : Nat → Nat} {i : Instr} {nextAddr : Nat} (h : s.fetchAt f = .ok i nextAddr) :
    (∃ lit r, i = .movLitReg lit r ∧ r.nameable s.params = true ∧ f 5 + 1 ≤ s.progMem.size) ∨
    (∃ lit addr, i = .storeLitMem lit addr ∧ f 5 + 4 ≤ s.progMem.size) ∨
    (i = .ret ∧ s.regs.ip.toNat + 1 ≤ s.progMem.size) := by
  rw [State.fetchAt] at h
  split at h
  · cases h
  next h1 =>
  split at h
  · cases h
  · split at h
    · cases h
    split at h
    · cases h
    next h6 =>
    split at h
    · cases h
    next r hreg =>
    cases h
    exact .inl ⟨_, r, rfl, nameable_of_decodeReg hreg, Nat.not_lt.mp h6⟩
  · split at h
    · cases h
    split at h
    · cases h
    next h9 =>
    cases h
    exact .inr (.inl ⟨_, _, rfl, Nat.not_lt.mp h9⟩)
  · cases h
    exact .inr (.inr ⟨rfl, Nat.not_lt.mp h1⟩)

/-- Where the fields stand at their sums, an instruction that is fetched can be encoded and lies in the program memory. -/
theorem State.fetchInstr_eq_ok {s : State} (hat : s.fieldsAtSums) {i : Instr} {nextAddr : Nat} (h : s.fetchInstr = .ok i nextAddr) :
    i.wf s.params = true ∧ s.regs.ip.toNat + i.length ≤ s.progMem.size := by
  rw [State.fetchInstr_of_fieldsAtSums hat] at h
  rcases State.fetchAt_eq_ok h with ⟨lit, r, rfl, hr, hin⟩ | ⟨lit, addr, rfl, hin⟩ | ⟨rfl, hin⟩
  · exact ⟨hr, hin⟩
  · exact ⟨rfl, hin⟩
  · exact ⟨rfl, hin⟩

/-- A data memory of the same size leaves the program memory's size, aliased or not. -/
theorem State.setData_progMem_size {s : State} {m : Memory} (h : m.size = s.data.size) :
    (s.setData m).progMem.size = s.progMem.size := by
  unfold State.progMem
  rw [State.setData_aliased]
  cases s.aliased
  · rfl
  · exact h

/-- With REG_ID_IP none and no wrap, a step of a run halts or moves IP up inside the program memory. -/
theorem step_halts_or_climbs {s : State} (hrun : s.inRun) (hip : s.params.regIdIp = none) (hsize : s.progMem.size < 2 ^ 32) :
    ∃ t, step s = .next t ∧ (t.runState = .halted ∨
      (t.inRun ∧ t.params = s.params ∧ t.progMem.size = s.progMem.size ∧ s.regs.ip.toNat < s.progMem.size ∧
        s.regs.ip.toNat < t.regs.ip.toNat)) := by
  obtain ⟨t, ht, -⟩ := runningStepAlwaysAnswers s hrun
  refine ⟨t, ht, ?_⟩
  rcases step_next_of_inRun hrun ht with ⟨i, nextAddr, hf, heffect⟩ | ⟨e, rfl⟩
  · obtain ⟨hwf, hin⟩ := State.fetchInstr_eq_ok (.inr (.inl hsize)) hf
    rcases heffect with ⟨lit, r, rfl, rfl⟩ | ⟨lit, addr, rfl, -, rfl⟩ | ⟨-, rfl⟩
    · have hr : r ≠ .ip := by
        rintro rfl
        simp [Instr.wf, Reg.nameable, hip] at hwf
      have hin : s.regs.ip.toNat + 6 ≤ s.progMem.size := hin
      have hnext : ((s.enterRunning.advance 6).setReg r lit).regs.ip.toNat = s.regs.ip.toNat + 6 := by
        rw [State.setReg_regs, RegFile.set_ip, if_neg hr, State.advance_ip_toNat, State.enterRunning_regs]
        omega
      exact .inr ⟨.inr rfl, rfl, rfl, by omega, by omega⟩
    · have hin : s.regs.ip.toNat + 9 ≤ s.progMem.size := hin
      have hnext : (s.enterRunning.advance 9).regs.ip.toNat = s.regs.ip.toNat + 9 := by
        rw [State.advance_ip_toNat, State.enterRunning_regs]
        omega
      refine .inr ⟨.inr rfl, rfl, State.setData_progMem_size (Memory.setBytes_size _ _ _), by omega, ?_⟩
      rw [State.setData_regs]
      omega
    · exact .inl rfl
  · exact .inl rfl

/-- A run halts within one step more than the bytes of program memory from IP on. -/
theorem run_halts_of_bytes_left (n : Nat) (s : State) (hrun : s.inRun) (hip : s.params.regIdIp = none)
    (hsize : s.progMem.size < 2 ^ 32) (hleft : s.progMem.size ≤ s.regs.ip.toNat + n) :
    ∃ k, k ≤ n + 1 ∧ ∃ t : State, Host.Core.run Sys2Proof.core k s = .next t ∧ t.runState = .halted := by
  induction n generalizing s with
  | zero =>
    obtain ⟨t, ht, h | ⟨-, -, -, hin, -⟩⟩ := step_halts_or_climbs hrun hip hsize
    · exact ⟨1, le_rfl, t, core_run_succ 0 ht, h⟩
    · omega
  | succ n ih =>
    obtain ⟨t, ht, h | ⟨hrun', hparams, hsame, -, hup⟩⟩ := step_halts_or_climbs hrun hip hsize
    · exact ⟨1, by omega, t, core_run_succ 0 ht, h⟩
    · obtain ⟨k, hk, u, hu, hhalted⟩ := ih t hrun' (hparams ▸ hip) (hsame ▸ hsize) (by omega)
      exact ⟨k + 1, by omega, u, (core_run_succ k ht).trans hu, hhalted⟩

/-- Settles O19: from IP on there are at most PROG_MEM_SIZE bytes, and each step but the last uses one up. -/
theorem everyRunHalts : Obligations.EveryRunHalts := fun s hrun hip hsize =>
  run_halts_of_bytes_left s.progMem.size s hrun hip hsize (Nat.le_add_left _ _)

/-! ### Runs that never halt (R112). -/

/-- What holds of a state and is kept by a step holds after every number of steps. -/
theorem run_of_kept {P : State → Prop} (hstep : ∀ s, P s → ∃ t, step s = .next t ∧ P t) (k : Nat) (s : State) (hs : P s) :
    ∃ t : State, Host.Core.run Sys2Proof.core k s = .next t ∧ P t := by
  induction k generalizing s with
  | zero => exact ⟨s, rfl, hs⟩
  | succ k ih =>
    obtain ⟨t, ht, hPt⟩ := hstep s hs
    rw [core_run_succ k ht]
    exact ih t hPt

/-- A block with these parameters in a run of this program memory from address 0, everything else as at reset. -/
def runningFromReset (p : Params) (prog : Memory) : State :=
  { State.reset with params := p, prog := prog, runState := .running }

theorem runningFromReset_inv {p : Params} (hp : p.wf) {prog : Memory} (hprog : prog.wf = true) : (runningFromReset p prog).Inv where
  params := hp
  data := State.reset_data_wf
  prog := hprog
  legal := nofun
  idle := nofun
  halted := nofun

/-- A MOV_LIT_REG at address 0 that sets IP to 0, where the byte 0x04 names IP (vector N2). -/
def selfJump : State :=
  runningFromReset { Params.default with regIdIp := some 4 } ⟨6, [(0, 1), (5, 4)]⟩

theorem step_selfJump : step selfJump = .next selfJump :=
  step_of_fetch_ok (.inr rfl) (show selfJump.fetchInstr = .ok (.movLitReg 0 .ip) 6 by decide)

/-- The parameters of the second run: the byte 0x00 is the opcode of MOV_LIT_REG and the id of R0, the byte 0x01 the opcode of
STORE_LIT_MEM and the id of R1, and fields wrap. -/
def wrapParams : Params :=
  { Params.default with opcMovLitReg := 0, opcStoreLitMem := 1, fieldsWrap := true }

/-- A program memory of 2^32 bytes, all zero but for a STORE_LIT_MEM at 0 and one at 2^32 - 5. -/
def wrapProg : Memory :=
  ⟨2 ^ 32, [(0, 1), (0xFFFFFFFB, 1)]⟩

/-- What every state of the second run keeps: IP is 0 or leaves 3, 4 or 5 modulo 6. Each MOV_LIT_REG adds 6, and as 2^32 leaves 4, the
class of 3 wraps to that of 5 and the class of 4 to 0; the two stores lead from 0 to 9 and from 2^32 - 5 to 4. No literal or address that
is met so crosses 2^32 - 1. -/
structure State.Wrapping (s : State) : Prop where
  running : s.runState = .running
  params : s.params = wrapParams
  aliased : s.aliased = false
  prog : s.prog = wrapProg
  data : s.data.size = 0x2000
  ip : s.regs.ip.toNat = 0 ∨ 3 ≤ s.regs.ip.toNat % 6

theorem wrapProg_byte (a : Nat) : wrapProg.byte a = if a = 0 ∨ a = 0xFFFFFFFB then 1 else 0 := by
  simp only [wrapProg, Memory.byte, cellGet, Memory.unlisted]
  grind

theorem State.Wrapping.progMem {s : State} (h : s.Wrapping) : s.progMem = wrapProg :=
  (State.progMem_of_not_aliased h.aliased).trans h.prog

/-- O55 speaks of these states. -/
theorem State.Wrapping.fields {s : State} (h : s.Wrapping) :
    s.inRun ∧ s.params.wf ∧ s.params.fieldsWrap = true ∧ s.progMem.size = 2 ^ 32 := by
  rw [h.progMem, h.params]
  exact ⟨.inr h.running, by decide, rfl, rfl⟩

/-- The two stores: the address field reads 0 or 1. -/
theorem State.Wrapping.step_store {s : State} (h : s.Wrapping) (hstore : s.regs.ip.toNat = 0 ∨ s.regs.ip.toNat = 0xFFFFFFFB) :
    ∃ t, step s = .next t ∧ t.Wrapping := by
  have hip : s.regs.ip = 0 ∨ s.regs.ip = 0xFFFFFFFB :=
    hstore.imp (fun h0 => BitVec.eq_of_toNat_eq h0) fun h5 => BitVec.eq_of_toNat_eq h5
  obtain ⟨hrun, hp, hwrap, hsize⟩ := h.fields
  obtain ⟨-, -, hstep⟩ := fieldsFollowWrappedIp s hrun hp hwrap hsize
  rw [h.progMem, h.params] at hstep
  have hop : wrapProg.byte s.regs.ip.toNat = wrapParams.opcStoreLitMem := by
    rcases hip with hip | hip <;> rw [hip] <;> rfl
  have hlit : (s.regs.ip + 1).toNat + 4 ≤ 2 ^ 32 := by
    rcases hip with hip | hip <;> rw [hip] <;> decide
  have haddr : (s.regs.ip + 5).toNat + 4 ≤ 2 ^ 32 := by
    rcases hip with hip | hip <;> rw [hip] <;> decide
  have hin : (wrapProg.word (s.regs.ip + 5).toNat).toNat + 4 ≤ s.data.size := by
    rw [h.data]
    rcases hip with hip | hip <;> rw [hip] <;> decide
  have hnext : (s.regs.ip + 9).toNat = 0 ∨ 3 ≤ (s.regs.ip + 9).toNat % 6 := by
    rcases hip with hip | hip <;> rw [hip] <;> decide
  exact ⟨_, ((hstep hop hlit).2 haddr).trans (execStoreLitMem_inBounds hin),
    rfl, rfl, h.aliased, h.prog, (Memory.setBytes_size _ _ _).trans h.data, hnext⟩

/-- Every other step is a MOV_LIT_REG, to R0 or R1. -/
theorem State.Wrapping.step_mov {s : State} (h : s.Wrapping) (hmov : ¬(s.regs.ip.toNat = 0 ∨ s.regs.ip.toNat = 0xFFFFFFFB)) :
    ∃ t, step s = .next t ∧ t.Wrapping := by
  obtain ⟨hrun, hp, hwrap, hsize⟩ := h.fields
  obtain ⟨-, hstep, -⟩ := fieldsFollowWrappedIp s hrun hp hwrap hsize
  rw [h.progMem, h.params] at hstep
  have hclass : 3 ≤ s.regs.ip.toNat % 6 := h.ip.resolve_left fun h0 => hmov (.inl h0)
  have hone : (s.regs.ip + 1).toNat = (s.regs.ip.toNat + 1) % 2 ^ 32 := s.advance_ip_toNat 1
  have hsix : (s.regs.ip + 6).toNat = (s.regs.ip.toNat + 6) % 2 ^ 32 := s.advance_ip_toNat 6
  have hop : wrapProg.byte s.regs.ip.toNat = wrapParams.opcMovLitReg := by
    rw [wrapProg_byte, if_neg hmov]
    rfl
  have hlit : (s.regs.ip + 1).toNat + 4 ≤ 2 ^ 32 := by omega
  have hnext : (s.regs.ip + 6).toNat = 0 ∨ 3 ≤ (s.regs.ip + 6).toNat % 6 := by omega
  obtain ⟨r, hr, hreg⟩ : ∃ r, r ≠ .ip ∧ decodeReg wrapParams (wrapProg.byte (s.regs.ip + 5).toNat) = some r := by
    rw [wrapProg_byte]
    split
    · exact ⟨.r1, by decide, by decide⟩
    · exact ⟨.r0, by decide, by decide⟩
  refine ⟨_, ((hstep hop hlit).2 r hreg).trans (execMovLitReg_eq _ _ _), rfl, rfl, h.aliased, h.prog, h.data, ?_⟩
  rw [State.setReg_regs, RegFile.set_ip, if_neg hr]
  exact hnext

theorem State.Wrapping.step {s : State} (h : s.Wrapping) : ∃ t, Machine.step s = .next t ∧ t.Wrapping := by
  by_cases hstore : s.regs.ip.toNat = 0 ∨ s.regs.ip.toNat = 0xFFFFFFFB
  · exact h.step_store hstore
  · exact h.step_mov hstore

theorem runningFromReset_wrapping : (runningFromReset wrapParams wrapProg).Wrapping :=
  ⟨rfl, rfl, rfl, rfl, rfl, .inl rfl⟩

/-- Settles O20: the first run stays where it is, the second in its three classes of IP. -/
theorem someRunNeverHalts : Obligations.SomeRunNeverHalts := by
  refine ⟨⟨selfJump, runningFromReset_inv (by decide) (by decide), .inr rfl, by decide, by decide, fun k => ?_⟩,
    runningFromReset wrapParams wrapProg, runningFromReset_inv (by decide) (by decide), .inr rfl, rfl, rfl, rfl, fun k => ?_⟩
  · obtain ⟨t, ht, rfl⟩ := run_of_kept (P := (· = selfJump)) (fun s hs => ⟨selfJump, hs ▸ step_selfJump, rfl⟩) k selfJump rfl
    exact ⟨_, ht, by decide⟩
  · obtain ⟨t, ht, hwrap⟩ := run_of_kept (fun s hs => State.Wrapping.step hs) k _ runningFromReset_wrapping
    exact ⟨t, ht, by simp [hwrap.running]⟩

end Sys2Proof.Machine
end

section
/-! PROOFS. The family of `41_data_movement.md`: a write of a register as it is read back, what is fetched at the opcode byte of a
MOV_LIT_REG, and its step. -/

namespace Sys2Proof.Machine

/-! ### The effect of MOV_LIT_REG (R120, R121). -/

@[simp] theorem State.getReg_setReg (s : State) (r q : Reg) (v : Word) :
    (s.setReg r v).getReg q = if r = q then v else s.getReg q :=
  RegFile.get_set s.regs r q v

/-- An advance of IP is seen by IP alone (R25). -/
theorem State.getReg_advance (s : State) (k : Nat) {q : Reg} (hq : q ≠ .ip) : (s.advance k).getReg q = s.getReg q :=
  RegFile.get_withIp s.regs _ hq

/-- A register that is neither the one named nor IP keeps its value. -/
theorem State.getReg_movLitReg (s : State) {r q : Reg} (lit : Word) (hr : q ≠ r) (hq : q ≠ .ip) :
    ((s.advance 6).setReg r lit).getReg q = s.getReg q := by
  rw [State.getReg_setReg, if_neg hr.symm, State.getReg_advance _ _ hq]

/-! ### What a step fetches at a MOV_LIT_REG. -/

/-- The row of MOV_LIT_REG is compared first, so no other row can hide it. -/
theorem dispatch_opcMovLitReg (p : Params) : dispatch p p.opcMovLitReg = some .movLitReg :=
  (dispatch_eq p _).trans (if_pos rfl)

section
variable {s : State}

/-- With no opcode byte in bounds the step raises OutOfBounds at IP, whatever the block does with fields (R102). -/
theorem step_of_opcode_outOfBounds (hrun : s.inRun) (h : s.progMem.size < s.regs.ip.toNat + 1) :
    step s = .next (s.enterRunning.raise (.outOfBounds .prog s.regs.ip .w1)) := by
  rw [step_of_fetch_outOfBounds hrun (s.fetchInstr_eq.trans (if_pos h)), BitVec.ofNat_toNat, BitVec.setWidth_eq]

/-- The address that a short field k bytes on records is IP + k. -/
theorem step_of_field_outOfBounds {k : Nat} {w : Width} (hrun : s.inRun)
    (h : s.fetchInstr = .outOfBounds (s.regs.ip.toNat + k) w) :
    step s = .next (s.enterRunning.raise (.outOfBounds .prog (s.regs.ip + BitVec.ofNat 32 k) w)) := by
  rw [step_of_fetch_outOfBounds hrun h, State.ofNat_ip_add]

/-- A MOV_LIT_REG with all six bytes in bounds has its fields at the sums, for no field starts past 2^32 - 1. -/
theorem State.fetchInstr_movLitReg_of_inBounds (hsize : s.progMem.size ≤ 2 ^ 32) (hin : s.regs.ip.toNat + 6 ≤ s.progMem.size)
    (hop : s.progMem.byte s.regs.ip.toNat = s.params.opcMovLitReg) : s.fetchInstr = s.fetchAt fun k => s.regs.ip.toNat + k := by
  have hbyte : ¬ s.progMem.size < s.regs.ip.toNat + 1 := by omega
  have hrow := hop ▸ dispatch_opcMovLitReg s.params
  have hfield : ∀ k, k < 6 → s.fieldAddress (s.regs.ip.toNat + k) = s.regs.ip.toNat + k := fun k hk =>
    State.fieldAddress_of_lt (by omega)
  rw [State.fetchInstr_eq, State.fetchAt_movLitReg hbyte hrow, State.fetchAt_movLitReg hbyte hrow, hfield 1 (by decide),
    hfield 5 (by decide)]

/-- A MOV_LIT_REG in bounds whose register-id byte names a register writes the literal there, IP moved on first (R120, R121). -/
theorem step_movLitReg_of_decodeReg {r : Reg} (hrun : s.inRun) (hfetch : s.fetchInstr = s.fetchAt fun k => s.regs.ip.toNat + k)
    (hop : s.progMem.byte s.regs.ip.toNat = s.params.opcMovLitReg) (hin : s.regs.ip.toNat + 6 ≤ s.progMem.size)
    (hreg : decodeReg s.params (s.progMem.byte (s.regs.ip.toNat + 5)) = some r) :
    step s = .next ((s.enterRunning.advance 6).setReg r (s.progMem.word (s.regs.ip.toNat + 1))) := by
  have hrow := hop ▸ dispatch_opcMovLitReg s.params
  rw [State.fetchAt_movLitReg (by omega) hrow, if_neg (by omega), if_neg (by omega), assemble_movLitReg_of_some hreg] at hfetch
  rw [step_of_fetch_ok hrun hfetch, exec, execMovLitReg_eq]

end

/-! ### The obligations. -/

/-- Settles O27: the fetch makes the comparisons of R120 in their order, and each clause says which is the first to fail. -/
theorem movLitRegStep : Obligations.MovLitRegStep := by
  intro s hrun hat
  have hfetch := State.fetchInstr_of_fieldsAtSums hat
  refine ⟨step_of_opcode_outOfBounds hrun, fun h1 hop => ?_⟩
  have hrow := hop ▸ dispatch_opcMovLitReg s.params
  have hmov := hfetch.trans (State.fetchAt_movLitReg (Nat.not_lt.mpr h1) hrow)
  refine ⟨fun h5 => step_of_field_outOfBounds hrun (k := 1) ?_, fun h5 h6 => step_of_field_outOfBounds hrun (k := 5) ?_,
    fun h6 => ⟨fun hreg => step_of_fetch_invalidRegister hrun ?_,
      fun r _ hreg => step_movLitReg_of_decodeReg hrun hfetch hop h6 hreg⟩⟩
  · rw [hmov, if_pos h5]
  · rw [hmov, if_neg (by omega), if_pos h6]
  · rw [hmov, if_neg (by omega), if_neg (by omega), assemble_movLitReg_of_none hreg]

/-- Settles O28: in bounds the fields stand at their sums in every block, and the write of IP comes after its advance. A register
that is decoded is nameable, and IP is not at the defaults. -/
theorem movLitIpStep : Obligations.MovLitIpStep :=
  ⟨fun _ hrun hsize hin hop hreg =>
    step_movLitReg_of_decodeReg hrun (State.fetchInstr_movLitReg_of_inBounds hsize hin hop) hop hin hreg,
    fun _ hreg => absurd (nameable_of_decodeReg hreg) (by decide)⟩

/-- Settles O22: the write of a general register leaves the advanced IP. -/
theorem movLitRegCompletes : Obligations.MovLitRegCompletes := by
  intro lit r s hr
  refine ⟨_, execMovLitReg_eq lit r s, ?_, ?_, fun q => State.getReg_movLitReg s lit, rfl, rfl, rfl, rfl, rfl, rfl, rfl, rfl, rfl⟩
  · rw [State.getReg_setReg, if_pos rfl]
  · rw [State.setReg_regs, RegFile.set_ip, if_neg hr]
    rfl

/-- Settles O23: the write of IP is all that is left of its advance. -/
theorem movLitIpCompletes : Obligations.MovLitIpCompletes := fun lit s =>
  ⟨_, execMovLitReg_eq lit .ip s, rfl, fun _ hq => State.getReg_movLitReg s lit hq hq, rfl, rfl, rfl, rfl, rfl, rfl, rfl, rfl, rfl⟩

end Sys2Proof.Machine
end

section
/-! PROOFS. The family of `42_memory_store.md`: the word and the bytes a store leaves, what is fetched at the opcode byte of a
STORE_LIT_MEM and its step, and data memory as a run writes it and never reads it. -/

namespace Sys2Proof.Machine

/-! ### The effect of STORE_LIT_MEM (R130). -/

/-- The word at the address of a stored literal is the literal. -/
theorem Memory.word_setBytes_leBytes {m : Memory} {a : Nat} (v : Word) (h : m.wf = true) (ha : a + 4 ≤ m.size) :
    (m.setBytes a (leBytes 4 v.toNat)).word a = v := by
  have hbytes : (m.setBytes a (leBytes 4 v.toNat)).bytesAt a 4 = leBytes 4 v.toNat := by
    simpa using Memory.bytesAt_setBytes_leBytes (k := 0) (j := 4) v h ha le_rfl
  rw [← Memory.word_eq, hbytes, leNat_leBytes_word]

/-- Settles O24: the store advances IP and puts the literal's four bytes in data memory. -/
theorem storeLitMemCompletes : Obligations.StoreLitMemCompletes := by
  intro lit addr s h hin
  exact ⟨_, execStoreLitMem_inBounds hin, fun k hk => Memory.byte_setBytes_leBytes lit h hin hk,
    fun x hx => Memory.byte_setBytes_leBytes_out lit h hin hx, Memory.setBytes_size _ _ _, rfl,
    fun q hq => s.getReg_advance 9 hq, rfl, rfl, rfl, rfl, rfl, rfl, rfl, rfl⟩

/-- Settles O25: the bounds are compared on natural numbers, and a raise writes no memory. -/
theorem storeLitMemOutOfBounds : Obligations.StoreLitMemOutOfBounds := fun _ _ _ h =>
  ⟨execStoreLitMem_outOfBounds h, rfl⟩

/-! ### A step at a STORE_LIT_MEM (R130). -/

/-- Settles O29: the fetch makes the comparisons of R130 in their order, the store the last one, and each clause says which is the first
to fail. -/
theorem storeLitMemStep : Obligations.StoreLitMemStep := by
  intro s hrun hat hp h
  refine ⟨step_of_opcode_outOfBounds hrun, fun h1 hop => ?_⟩
  have hrow := (congrArg _ hop).trans (dispatch_opcode hp .storeLitMem)
  have hfetch := (State.fetchInstr_of_fieldsAtSums hat).trans (State.fetchAt_storeLitMem (Nat.not_lt.mpr h1) hrow)
  refine ⟨fun h5 => step_of_field_outOfBounds hrun (k := 1) ?_, fun h5 h9 => step_of_field_outOfBounds hrun (k := 5) ?_,
    fun h9 => ?_⟩
  · rw [hfetch, if_pos h5]
  · rw [hfetch, if_neg (by omega), if_pos h9]
  · rw [if_neg (by omega), if_neg (by omega)] at hfetch
    rw [step_of_fetch_ok hrun hfetch]
    exact ⟨fun hout => execStoreLitMem_outOfBounds hout, fun hin => ⟨_, execStoreLitMem_inBounds hin,
      Memory.setBytes_size _ _ _, Memory.word_setBytes_leBytes _ h hin, fun x hx => Memory.byte_setBytes_leBytes_out _ h hin hx⟩⟩

/-! ### Only STORE_LIT_MEM writes data memory (R131). -/

/-- Settles O31: every other effect of a step keeps the data memory, and the store keeps the bytes outside its four. -/
theorem onlyStoreChangesData : Obligations.OnlyStoreChangesData := by
  intro s t x hrun h ht hx
  rcases step_next_of_inRun hrun ht with
    ⟨i, nextAddr, hfetch, ⟨lit, r, -, rfl⟩ | ⟨lit, addr, rfl, hin, rfl⟩ | ⟨-, rfl⟩⟩ | ⟨e, rfl⟩
  · exact absurd rfl hx
  · have hinside : ¬(x < addr.toNat ∨ addr.toNat + 4 ≤ x) := fun hout => hx (Memory.byte_setBytes_leBytes_out lit h hin hout)
    rw [not_or, Nat.not_lt, Nat.not_le] at hinside
    exact ⟨lit, addr, nextAddr, hfetch, hinside⟩
  · exact absurd rfl hx
  · exact absurd rfl hx

/-! ### No instruction reads data memory (R131). -/

/-- The same bytes stored in two memories: each byte stays in both, or is the same in both. -/
theorem Memory.byte_setBytes_kept_or_same {m m' : Memory} {a : Nat} {bs : List Byte} (h : m.wf = true) (h' : m'.wf = true)
    (ha : a + bs.length ≤ m.size) (ha' : a + bs.length ≤ m'.size) (x : Nat) :
    ((m.setBytes a bs).byte x = m.byte x ∧ (m'.setBytes a bs).byte x = m'.byte x) ∨
      (m.setBytes a bs).byte x = (m'.setBytes a bs).byte x := by
  by_cases hx : x < a ∨ a + bs.length ≤ x
  · exact .inl ⟨Memory.byte_setBytes_out bs h ha x hx, Memory.byte_setBytes_out bs h' ha' x hx⟩
  · obtain ⟨i, rfl⟩ := Nat.exists_eq_add_of_le (show a ≤ x by omega)
    have hi : i < bs.length := by omega
    exact .inr ((Memory.byte_setBytes_in bs h ha i hi).trans (Memory.byte_setBytes_in bs h' ha' i hi).symm)

/-- A step from `s` led to `t`, and one from `s` with the data memory `m` led to `t'`: R131's relation of the two. -/
def State.DataUnread (s : State) (m : Memory) (t t' : State) : Prop :=
  t.sameButData t' ∧ (s.data.wf = true → m.wf = true → ∀ a,
    (t.data.byte a = s.data.byte a ∧ t'.data.byte a = m.byte a) ∨ t.data.byte a = t'.data.byte a)

/-- Data memories of one size are all that two such states differ in. -/
theorem State.sameButData_setData (t : State) {m m' : Memory} (h : m'.size = m.size) :
    (t.setData m).sameButData (t.setData m') :=
  ⟨h, congrArg (fun n => t.setData (Memory.zero n)) h⟩

section
variable {s : State} {m : Memory} (hsize : m.size = s.data.size)
include hsize

/-- An effect that keeps the data memory. -/
theorem State.DataUnread.of_kept {t : State} (h : t.data = s.data) : s.DataUnread m t (t.setData m) :=
  ⟨t.sameButData_setData (m := t.data) (hsize.trans (congrArg Memory.size h).symm),
    fun _ _ a => .inl ⟨congrArg (Memory.byte · a) h, rfl⟩⟩

/-- An effect that stores the same bytes in both. -/
theorem State.DataUnread.of_stored (t : State) {a : Nat} {bs : List Byte} (h : a + bs.length ≤ s.data.size) :
    s.DataUnread m (t.setData (s.data.setBytes a bs)) (t.setData (m.setBytes a bs)) :=
  ⟨t.sameButData_setData (by rw [Memory.setBytes_size, Memory.setBytes_size, hsize]),
    fun hs hm => Memory.byte_setBytes_kept_or_same hs hm h (hsize ▸ h)⟩

/-- No instruction's effect reads data memory: of a store only the size of the memory decides. -/
theorem exec_dataUnread (i : Instr) : nextRelated (s.DataUnread m) (exec i s) (exec i (s.setData m)) := by
  cases i with
  | movLitReg lit r => exact ⟨_, _, rfl, rfl, .of_kept hsize rfl⟩
  | storeLitMem lit addr =>
    rcases Nat.lt_or_ge s.data.size (addr.toNat + 4) with h | h
    · have h' : (s.setData m).data.size < addr.toNat + 4 := hsize.trans_lt h
      exact ⟨_, _, execStoreLitMem_outOfBounds h, execStoreLitMem_outOfBounds h', .of_kept hsize rfl⟩
    · have h' : addr.toNat + 4 ≤ (s.setData m).data.size := h.trans_eq hsize.symm
      exact ⟨_, _, execStoreLitMem_inBounds h, execStoreLitMem_inBounds h',
        .of_stored hsize (s.advance 9) (by rwa [leBytes_length])⟩
  | ret => exact ⟨_, _, rfl, rfl, .of_kept hsize rfl⟩

end

/-- A run that is not aliased fetches nothing from data memory. -/
theorem State.fetchInstr_setData {s : State} (h : s.aliased = false) (m : Memory) : (s.setData m).fetchInstr = s.fetchInstr := by
  have hmem : (s.setData m).progMem = s.progMem :=
    (State.progMem_of_not_aliased (s := s.setData m) h).trans (State.progMem_of_not_aliased h).symm
  unfold State.fetchInstr State.fetchField
  rw [hmem]
  rfl

/-- Settles O53: both runs fetch alike, and neither a raise nor an instruction reads the data memory. -/
theorem dataNeverRead : Obligations.DataNeverRead := by
  intro s m hrun hnot hsize
  have hraise : ∀ e, nextRelated (s.DataUnread m) (.next (s.enterRunning.raise e))
      (.next ((s.setData m).enterRunning.raise e)) := fun e => ⟨_, _, rfl, rfl, .of_kept hsize rfl⟩
  suffices h : nextRelated (s.DataUnread m) (stepRun s) (stepRun (s.setData m)) by
    rwa [step_running hrun, step_running (s := s.setData m) hrun]
  unfold stepRun
  rw [State.fetchInstr_setData hnot]
  cases s.fetchInstr with
  | ok i nextAddr => exact exec_dataUnread (s := s.enterRunning) hsize i
  | outOfBounds a w => exact hraise _
  | illegalInstruction b => exact hraise _
  | invalidRegister b => exact hraise _

end Sys2Proof.Machine
end

section
/-! PROOFS. The family of `43_control.md`: what is fetched at the opcode byte of a RETURN, and its step. -/

namespace Sys2Proof.Machine

/-- A RETURN has no field: its opcode byte in bounds is all the fetch reads, in every block (R140). -/
theorem State.fetchInstr_ret {s : State} (h : ¬ s.progMem.size < s.regs.ip.toNat + 1)
    (hop : dispatch s.params (s.progMem.byte s.regs.ip.toNat) = some .ret) :
    s.fetchInstr = .ok .ret (s.regs.ip.toNat + 1) := by
  rw [State.fetchInstr_eq, State.fetchAt, if_neg h, hop]

/-- Settles O30: the opcode byte is the one check of R140. Past it the effect halts with R0 after the advance of IP. -/
theorem returnStep : Obligations.ReturnStep := by
  intro s hrun hp
  refine ⟨step_of_opcode_outOfBounds hrun, fun hin hop => ?_⟩
  have hrow := (congrArg _ hop).trans (dispatch_opcode hp .ret)
  have hfetch := State.fetchInstr_ret (Nat.not_lt.mpr hin) hrow
  exact (step_of_fetch_ok hrun hfetch).trans (execRet_eq s.enterRunning)

/-- Settles O26: the halt follows the advance of IP, which leaves R0. -/
theorem returnCompletes : Obligations.ReturnCompletes := fun s =>
  ⟨_, execRet_eq s, State.halt_runState _ _, State.halt_status _ _, State.halt_reply _ _, rfl, rfl, rfl, rfl, rfl, rfl, rfl⟩

end Sys2Proof.Machine
end

section
/-! PROOFS. The family of `60_exceptions.md`: what a fatal error records, what it leaves alone, and which check of a step it reports. -/

namespace Sys2Proof.Machine

/-! ### What raise records (R150 to R154). -/

/-- R31: FAULT_SPACE is 0 for PROG and 1 for DATA. -/
theorem spaceCode_eq (sp : Space) : spaceCode sp = if sp = .prog then 0 else 1 := by
  cases sp <;> rfl

/-- R31: FAULT_WIDTH is 1, 2 or 4, the number of bytes. -/
theorem toNat_widthCode (w : Width) : (widthCode w).toNat = w.bytes := by
  cases w <;> rfl

/-- Settles O32: each error writes its kind and its own fields, and the rest is what raise writes for every error. -/
theorem raiseRecordsError : Obligations.RaiseRecordsError := by
  intro s e
  refine ⟨HaltStatus.record_cause _ _ _, HaltStatus.record_faultIaddr _ _ _, ?_, rfl, rfl, rfl, rfl, rfl, rfl, rfl, rfl, rfl⟩
  cases e with
  | outOfBounds sp addr w => exact ⟨rfl, spaceCode_eq sp, rfl, toNat_widthCode w⟩
  | illegalInstruction b => exact ⟨rfl, rfl⟩
  | invalidRegister b => exact ⟨rfl, rfl⟩

/-! ### A step that ends in a fatal error (R154, R158). -/

/-- The run ended by a fatal error. -/
def State.endedByFault (t : State) : Prop :=
  t.runState = .halted ∧ t.status.cause = .fault

theorem State.not_endedByFault_of_running {t : State} (h : t.runState = .running) : ¬ t.endedByFault := fun ⟨hhalt, _⟩ =>
  nomatch h.symm.trans hhalt

theorem State.not_endedByFault_halt (s : State) (v : Word) : ¬ (s.halt v).endedByFault := fun ⟨_, hcause⟩ =>
  nomatch hcause

/-- A raise is the only effect of a step that ends the run by a fatal error. -/
theorem eq_raise_of_endedByFault {s t : State} (hrun : s.inRun) (ht : step s = .next t) (hfault : t.endedByFault) :
    ∃ e, t = s.enterRunning.raise e := by
  rcases step_next_of_inRun hrun ht with
    ⟨i, nextAddr, -, ⟨lit, r, -, rfl⟩ | ⟨lit, addr, -, -, rfl⟩ | ⟨-, rfl⟩⟩ | hraise
  · exact absurd hfault (State.not_endedByFault_of_running rfl)
  · exact absurd hfault (State.not_endedByFault_of_running rfl)
  · exact absurd hfault (State.not_endedByFault_halt _ _)
  · exact hraise

/-- Settles O33: such a step is a raise, which writes the record and IP alone. -/
theorem fatalErrorCommitsNothing : Obligations.FatalErrorCommitsNothing := by
  intro s t hrun ht hhalt hcause
  obtain ⟨e, rfl⟩ := eq_raise_of_endedByFault hrun ht ⟨hhalt, hcause⟩
  exact ⟨fun q hq => RegFile.get_withIp s.regs _ hq, rfl, rfl, HaltStatus.record_faultIaddr _ _ _, HaltStatus.record_result _ _ _⟩

/-! ### The error of a step by what it fetches. -/

/-- The check an instruction makes of its effect: only the store of R130 has one. -/
def State.effectFailure (s : State) : Instr → Option FatalError
  | .movLitReg _ _ => none
  | .storeLitMem _ addr => if s.data.size < addr.toNat + 4 then some (.outOfBounds .data addr .w4) else none
  | .ret => none

/-- The error of a step that fetched this: the fetch's own, or else that of the instruction's effect. -/
def State.failureOf (s : State) : DecodeResult Nat → Option FatalError
  | .ok i _ => s.effectFailure i
  | .outOfBounds a w => some (.outOfBounds .prog (BitVec.ofNat 32 a) w)
  | .illegalInstruction b => some (.illegalInstruction b)
  | .invalidRegister b => some (.invalidRegister b)

/-- What a step answers for its error: the raise of it, or a next state that no fatal error ended. -/
def State.Reports (s : State) (x : Host.Outcome State Fault Refusal) : Option FatalError → Prop
  | some e => x = .next (s.raise e)
  | none => ∃ t, x = .next t ∧ ¬ t.endedByFault

/-- An instruction's effect reports its own check. -/
theorem exec_reports {s : State} (hs : s.runState = .running) (i : Instr) : s.Reports (exec i s) (s.effectFailure i) := by
  cases i with
  | movLitReg lit r => exact ⟨_, execMovLitReg_eq lit r s, State.not_endedByFault_of_running hs⟩
  | storeLitMem lit addr =>
    rw [State.effectFailure]
    split
    · next hout => exact execStoreLitMem_outOfBounds hout
    · next hin => exact ⟨_, execStoreLitMem_inBounds (Nat.not_lt.mp hin), State.not_endedByFault_of_running hs⟩
  | ret => exact ⟨_, execRet_eq s, State.not_endedByFault_halt _ _⟩

/-- A step of a run reports the error of what it fetches, whether its fields wrap or not. -/
theorem step_reports {s : State} (hrun : s.inRun) : s.enterRunning.Reports (step s) (s.failureOf s.fetchInstr) := by
  cases hfetch : s.fetchInstr with
  | ok i nextAddr =>
    rw [step_of_fetch_ok hrun hfetch]
    exact exec_reports rfl i
  | outOfBounds a w => exact step_of_fetch_outOfBounds hrun hfetch
  | illegalInstruction b => exact step_of_fetch_illegalInstruction hrun hfetch
  | invalidRegister b => exact step_of_fetch_invalidRegister hrun hfetch

/-! ### The order of the checks (R155). -/

/-- With the fields at R155's sums, the fetch and the effect make the checks of R155 in its order. -/
theorem State.firstFailure_eq_failureOf {s : State} (h : s.fieldsAtSums) : s.firstFailure = s.failureOf s.fetchInstr := by
  rw [State.fetchInstr_of_fieldsAtSums h, State.fetchAt, dispatch_eq, State.firstFailure]
  simp only [Nat.add_assoc, Nat.reduceAdd]
  by_cases h1 : s.progMem.size < s.regs.ip.toNat + 1
  · simp only [if_pos h1]
    rfl
  by_cases hmov : s.progMem.byte s.regs.ip.toNat = s.params.opcMovLitReg
  · simp only [if_neg h1, if_pos hmov, apply_ite s.failureOf]
    cases decodeReg s.params (s.progMem.byte (s.regs.ip.toNat + 5)) <;> rfl
  by_cases hstore : s.progMem.byte s.regs.ip.toNat = s.params.opcStoreLitMem
  · simp only [if_neg h1, if_neg hmov, if_pos hstore, apply_ite s.failureOf]
    rfl
  simp only [if_neg h1, if_neg hmov, if_neg hstore]
  by_cases hret : s.progMem.byte s.regs.ip.toNat = s.params.opcReturn
  · simp only [if_pos hret]
    rfl
  · simp only [if_neg hret]
    rfl

/-- Settles O15: the first failing check is the error of what the step fetches, and the step reports that one. -/
theorem firstFailingCheckIsReported : Obligations.FirstFailingCheckIsReported := by
  intro s hrun hat
  have hreports := step_reports hrun
  rw [← State.firstFailure_eq_failureOf hat] at hreports
  exact ⟨fun e he => by rwa [he] at hreports, fun hnone => by rwa [hnone] at hreports⟩

end Sys2Proof.Machine
end

section
/-! PROOFS. The family of `70_reset_and_hazards.md`: what the host's pending transactions mean to a step, during a run and between runs,
and what the transactions of the host port answer and leave alone. -/

namespace Sys2Proof.Machine

/-! ### The host during a run (R185). -/

/-- A step from `s` led to `t`, and one from `s` with `ops` pending led to `t'`: R185's relation of the two. -/
def State.PendingInert (s : State) (ops : List HostOp) (t t' : State) : Prop :=
  t.pending = s.pending ∧ t' = t.withPending ops

/-- No instruction's effect reads or writes what the host has pending. -/
theorem exec_pendingInert (i : Instr) (s : State) (ops : List HostOp) :
    nextRelated (s.PendingInert ops) (exec i s) (exec i (s.withPending ops)) := by
  cases i with
  | movLitReg lit r => exact ⟨_, _, rfl, rfl, rfl, rfl⟩
  | storeLitMem lit addr =>
    rcases Nat.lt_or_ge s.data.size (addr.toNat + 4) with h | h
    · exact ⟨_, _, execStoreLitMem_outOfBounds h, execStoreLitMem_outOfBounds h, rfl, rfl⟩
    · exact ⟨_, _, execStoreLitMem_inBounds h, execStoreLitMem_inBounds h, rfl, rfl⟩
  | ret => exact ⟨_, _, rfl, rfl, rfl, rfl⟩

/-- The fetch reads nothing the host has pending. -/
theorem State.fetchInstr_withPending (s : State) (ops : List HostOp) : (s.withPending ops).fetchInstr = s.fetchInstr := rfl

/-- The sequencer fetches alike with any transactions pending, and neither a raise nor an instruction sees them. -/
theorem stepRun_pendingInert (s : State) (ops : List HostOp) :
    nextRelated (s.PendingInert ops) (stepRun s) (stepRun (s.withPending ops)) := by
  have hraise : ∀ e, nextRelated (s.PendingInert ops) (.next (s.enterRunning.raise e))
      (.next ((s.withPending ops).enterRunning.raise e)) := fun e => ⟨_, _, rfl, rfl, rfl, rfl⟩
  unfold stepRun
  rw [State.fetchInstr_withPending]
  cases s.fetchInstr with
  | ok i nextAddr => exact exec_pendingInert i s.enterRunning ops
  | outOfBounds a w => exact hraise _
  | illegalInstruction b => exact hraise _
  | invalidRegister b => exact hraise _

/-- Settles O41: a step of a run is the sequencer's, whatever is pending. -/
theorem hostInertDuringRun : Obligations.HostInertDuringRun := by
  intro s ops hrun
  obtain ⟨t, t', ht, ht', hkept, rfl⟩ := stepRun_pendingInert s ops
  exact ⟨t, (step_running hrun).trans ht, hkept, (step_running (s := s.withPending ops) hrun).trans ht'⟩

/-! ### The host between runs (R174, R175). -/

/-- Settles O54: the host's turn makes the first of the list. -/
theorem hostStepMakesOldestTransaction : Obligations.HostStepMakesOldestTransaction := by
  intro s op ops hbetween hpending
  rw [step_between hbetween, hostTurn, hpending]

/-! ### Reset and construction (R170, R176). -/

/-- Settles O38: reset is defined as that construction. -/
theorem resetIsDefaultConstruction : Obligations.ResetIsDefaultConstruction :=
  ⟨rfl, rfl, rfl⟩

theorem hostExec_construct_of_le {size : Nat} (h : size ≤ Config.maxMemSize) (init : RegFile) (s : State) :
    hostExec (.construct size init) s = .next ((s.reconstruct size init).answer .done) :=
  if_pos h

theorem hostExec_construct_of_lt {size : Nat} (h : Config.maxMemSize < size) (init : RegFile) (s : State) :
    hostExec (.construct size init) s = .refused .notConstructible :=
  if_neg (Nat.not_le.mpr h)

theorem hostExec_newProgram_of_le {size : Nat} (h : size ≤ Config.maxMemSize) (s : State) :
    hostExec (.newProgram size) s = .next ({ s with prog := Memory.zero size }.answer .done) :=
  if_pos h

theorem hostExec_newProgram_of_lt {size : Nat} (h : Config.maxMemSize < size) (s : State) :
    hostExec (.newProgram size) s = .refused .notConstructible :=
  if_neg (Nat.not_le.mpr h)

/-- Settles O48: the one check of both transactions is that the size is at most 2^32 (D3). -/
theorem constructionSizes : Obligations.ConstructionSizes := fun s _ init =>
  ⟨fun h => ⟨⟨_, hostExec_construct_of_le h init s, rfl, rfl, rfl, rfl, rfl, rfl⟩, hostExec_newProgram_of_le h s⟩,
    fun h => ⟨hostExec_construct_of_lt h init s, hostExec_newProgram_of_lt h s⟩⟩

/-! ### The registers on the host port (R178, R179). -/

theorem hostExec_getReg (r : Reg) (s : State) : hostExec (.getReg r) s = .next (s.answer (.value (s.getReg r))) := rfl

theorem hostExec_setReg (r : Reg) (v : Word) (s : State) : hostExec (.setReg r v) s = .next ((s.setReg r v).answer .done) := rfl

/-- R101: a run that is started has the start address in IP, whatever IP held. -/
theorem ip_of_hostExec_run {al : Bool} {st : Word} {s t : State} (h : hostExec (.run al st) s = .next t) : t.regs.ip = st := by
  cases h
  rfl

/-- Settles O43: the answer is all that getReg gives, and the write of one register all that setReg does. -/
theorem hostRegisterAccess : Obligations.HostRegisterAccess := by
  intro s r v
  refine ⟨hostExec_getReg r s, _, hostExec_setReg r v s, ?_, fun q hq => ?_, rfl, rfl, rfl, rfl, rfl, rfl, rfl, rfl,
    fun al st u hrun => ip_of_hostExec_run hrun⟩
  · exact (s.getReg_setReg r r v).trans (if_pos rfl)
  · exact (s.getReg_setReg r q v).trans (if_neg hq.symm)

/-! ### The memories on the host port (R180 to R183, R186). -/

theorem State.hostWrite_outOfBounds {s : State} {sp : Space} {addr : Word} {w : Width} (v : Word)
    (h : (s.hostMem sp).size < addr.toNat + w.bytes) : s.hostWrite sp addr w v = s.answer .outOfBounds := by
  rw [State.hostWrite, Memory.write_eq_none.mpr h]

theorem State.hostRead_outOfBounds {s : State} {sp : Space} {addr : Word} {w : Width}
    (h : (s.hostMem sp).size < addr.toNat + w.bytes) : s.hostRead sp addr w = s.answer .outOfBounds := by
  rw [State.hostRead, Memory.read_eq_none.mpr h]

theorem State.hostRead_of_read {s : State} {sp : Space} {addr : Word} {w : Width} {v : Word}
    (h : (s.hostMem sp).read addr.toNat w = some v) : s.hostRead sp addr w = s.answer (.value v) := by
  rw [State.hostRead, h]

/-- Settles O45: out of bounds each access answers so, and an answer is no other change. -/
theorem hostAccessOutOfBounds : Obligations.HostAccessOutOfBounds := fun _ _ _ v =>
  ⟨fun h => ⟨congrArg Host.Outcome.next (State.hostWrite_outOfBounds (w := .w1) v h),
      congrArg Host.Outcome.next (State.hostRead_outOfBounds (w := .w1) h)⟩,
    fun h => ⟨congrArg Host.Outcome.next (State.hostWrite_outOfBounds (w := .w4) v h),
      congrArg Host.Outcome.next (State.hostRead_outOfBounds (w := .w4) h)⟩,
    fun bytes _ => hostExec_write_outOfBounds bytes⟩

/-- Settles O46: a read in bounds and an inspect only answer. -/
theorem hostReadsArePure : Obligations.HostReadsArePure := fun _ _ _ =>
  ⟨fun _ h => congrArg Host.Outcome.next (State.hostRead_of_read h),
    fun _ h => congrArg Host.Outcome.next (State.hostRead_of_read h), rfl, rfl⟩

end Sys2Proof.Machine
end
